-- ==== Sys2Proof/Word.lean ====
section
/-! DEFINITION. The two widths of the machine (00_scope.md R8, R10; 45_trap.md R212). -/

namespace Sys2Proof

/-- A register, a memory cell, an address, an instruction: 16 bits (00_scope.md R8, XLEN). -/
abbrev Word := BitVec 16

/-- A character on either port: 8 bits (45_trap.md R212). -/
abbrev Byte := BitVec 8

end Sys2Proof
end

