-- ==== Sys2Proof/Syntax.lean ====
section
/-! DEFINITION. Registers and instructions: one constructor of `Instr` per row of spec/opcode_table.json.
Immediates are held as the raw field of the word; Machine/Operands.lean extends them (30_encoding.md R84). -/

namespace Sys2Proof

/-- The eight general registers (10_state.md R20). -/
inductive Reg where
  | r0 | r1 | r2 | r3 | r4 | r5 | r6 | r7
  deriving DecidableEq, Repr

/-- The instructions, by the opcode table's rows (30_encoding.md R86, R92). -/
inductive Instr where
  /-- ADD, register mode (R133). -/
  | addReg (dr sr1 sr2 : Reg)
  /-- ADD, immediate mode (R134). -/
  | addImm (dr sr1 : Reg) (imm5 : BitVec 5)
  /-- AND, register mode (R135). -/
  | andReg (dr sr1 sr2 : Reg)
  /-- AND, immediate mode (R136). -/
  | andImm (dr sr1 : Reg) (imm5 : BitVec 5)
  /-- NOT (R137). -/
  | not (dr sr1 : Reg)
  /-- BR; the mask is n, z, p from bit 2 down to bit 0 (R153). -/
  | br (mask : BitVec 3) (off9 : BitVec 9)
  /-- RET, the row of JMP with BaseR = 7 (R155). -/
  | ret
  /-- JMP (R154); its row is reached by BaseR other than 7. -/
  | jmp (baseR : Reg)
  /-- JSR (R156). -/
  | jsr (off11 : BitVec 11)
  /-- JSRR (R157). -/
  | jsrr (baseR : Reg)
  /-- LD (R173). -/
  | ld (dr : Reg) (off9 : BitVec 9)
  /-- LDI (R174). -/
  | ldi (dr : Reg) (off9 : BitVec 9)
  /-- LDR (R175). -/
  | ldr (dr baseR : Reg) (off6 : BitVec 6)
  /-- LEA (R176). -/
  | lea (dr : Reg) (off9 : BitVec 9)
  /-- ST (R191). -/
  | st (sr : Reg) (off9 : BitVec 9)
  /-- STI (R192). -/
  | sti (sr : Reg) (off9 : BitVec 9)
  /-- STR (R193). -/
  | str (sr baseR : Reg) (off6 : BitVec 6)
  /-- TRAP x20 (R213). -/
  | getc
  /-- TRAP x21 (R214). -/
  | out
  /-- TRAP x22 (R215). -/
  | puts
  /-- TRAP x23, the routine IN (R217). -/
  | inChar
  /-- TRAP x24 (R218). -/
  | putsp
  /-- TRAP x25 (R219). -/
  | halt
  /-- The generic TRAP row, reached by every vector outside 0x20 to 0x25 (R210, R220). -/
  | trap (vec : BitVec 8)
  /-- RTI (R240). -/
  | rti
  /-- RES (R241). -/
  | res
  deriving DecidableEq, Repr

end Sys2Proof
end

