-- ==== Sys2Proof/WellFormed.lean ====
section
/-! DEFINITION. Which terms of `Instr` are the reading of a word: the table is first match wins, so a row reached only
when an earlier row does not match excludes that row's words. -/

namespace Sys2Proof

/-- The six vectors of the Trap Dispatcher (45_trap.md R211); each has a row before the generic TRAP row. -/
def routineVectors : List (BitVec 8) := [0x20#8, 0x21#8, 0x22#8, 0x23#8, 0x24#8, 0x25#8]

/-- An instruction is well-formed when no earlier row of the opcode table takes its words: JMP is not the RET row, TRAP
is not one of the six routines. Every other operand fills its field (30_encoding.md R83). -/
def Instr.wf : Instr → Bool
  | .jmp baseR => decide (baseR ≠ .r7)
  | .trap vec => !routineVectors.contains vec
  | .addReg _ _ _ | .addImm _ _ _ | .andReg _ _ _ | .andImm _ _ _ | .not _ _ => true
  | .br _ _ | .ret | .jsr _ | .jsrr _ => true
  | .ld _ _ | .ldi _ _ | .ldr _ _ _ | .lea _ _ | .st _ _ | .sti _ _ | .str _ _ _ => true
  | .getc | .out | .puts | .inChar | .putsp | .halt | .rti | .res => true

end Sys2Proof
end

