-- ==== Sys2Proof/Decode.lean ====
section
/-! DEFINITION. The Decoder (30_encoding.md R80 to R88), the opcode table as rows, and the encoder. Opcode numbers and
field positions are the spec's own, from general knowledge (D1, D2; log 6). -/

namespace Sys2Proof

/-- The register a 3-bit field names: "the 3-bit field as an unsigned number 0 to 7" (R84). -/
def Reg.ofField (f : BitVec 3) : Reg :=
  match f with
  | 0#3 => .r0
  | 1#3 => .r1
  | 2#3 => .r2
  | 3#3 => .r3
  | 4#3 => .r4
  | 5#3 => .r5
  | 6#3 => .r6
  | _ => .r7

/-- The index of a register, as its field holds it. -/
def Reg.field : Reg → BitVec 3
  | .r0 => 0#3
  | .r1 => 1#3
  | .r2 => 2#3
  | .r3 => 3#3
  | .r4 => 4#3
  | .r5 => 5#3
  | .r6 => 6#3
  | .r7 => 7#3

/-! The fields of R82, each by its lowest bit and its width. -/

/-- opcode, bits [15:12]. -/
def opcodeField (w : Word) : BitVec 4 := w.extractLsb' 12 4
/-- DR, and the SR of a store, bits [11:9]. -/
def regField11 (w : Word) : Reg := Reg.ofField (w.extractLsb' 9 3)
/-- SR1 and BaseR, bits [8:6]. -/
def regField8 (w : Word) : Reg := Reg.ofField (w.extractLsb' 6 3)
/-- SR2, bits [2:0]. -/
def regField2 (w : Word) : Reg := Reg.ofField (w.extractLsb' 0 3)
/-- cond-mask n z p, bits [11:9]. -/
def maskField (w : Word) : BitVec 3 := w.extractLsb' 9 3
/-- The ADD/AND mode bit, bit [5]. -/
def immediateMode (w : Word) : Bool := w.getLsbD 5
/-- The JSR mode bit, bit [11]. -/
def jsrMode (w : Word) : Bool := w.getLsbD 11
/-- imm5, bits [4:0]. -/
def imm5Field (w : Word) : BitVec 5 := w.extractLsb' 0 5
/-- offset6, bits [5:0]. -/
def off6Field (w : Word) : BitVec 6 := w.extractLsb' 0 6
/-- PCoffset9, bits [8:0]. -/
def off9Field (w : Word) : BitVec 9 := w.extractLsb' 0 9
/-- PCoffset11, bits [10:0]. -/
def off11Field (w : Word) : BitVec 11 := w.extractLsb' 0 11
/-- trapvect8, bits [7:0]. -/
def vectorField (w : Word) : BitVec 8 := w.extractLsb' 0 8

/-- The TRAP opcode's sub-selection by vector (R86, last arm; R211). -/
def decodeTrap (vec : BitVec 8) : Instr :=
  match vec with
  | 0x20#8 => .getc
  | 0x21#8 => .out
  | 0x22#8 => .puts
  | 0x23#8 => .inChar
  | 0x24#8 => .putsp
  | 0x25#8 => .halt
  | v => .trap v

/-- JMP, whose words with BaseR = 7 are the RET row (R155; first match wins). -/
def decodeJmp (baseR : Reg) : Instr :=
  match baseR with
  | .r7 => .ret
  | b => .jmp b

/-- The decode function of R86. It is total on every 16-bit word and never fails: RTI, RES and a TRAP with an unknown
vector decode to variants whose execution is the fatal decode error (R88). -/
def decode (w : Word) : Instr :=
  match opcodeField w with
  | 0x0#4 => .br (maskField w) (off9Field w)
  | 0x1#4 => if immediateMode w then .addImm (regField11 w) (regField8 w) (imm5Field w)
      else .addReg (regField11 w) (regField8 w) (regField2 w)
  | 0x2#4 => .ld (regField11 w) (off9Field w)
  | 0x3#4 => .st (regField11 w) (off9Field w)
  | 0x4#4 => if jsrMode w then .jsr (off11Field w) else .jsrr (regField8 w)
  | 0x5#4 => if immediateMode w then .andImm (regField11 w) (regField8 w) (imm5Field w)
      else .andReg (regField11 w) (regField8 w) (regField2 w)
  | 0x6#4 => .ldr (regField11 w) (regField8 w) (off6Field w)
  | 0x7#4 => .str (regField11 w) (regField8 w) (off6Field w)
  | 0x8#4 => .rti
  | 0x9#4 => .not (regField11 w) (regField8 w)
  | 0xA#4 => .ldi (regField11 w) (off9Field w)
  | 0xB#4 => .sti (regField11 w) (off9Field w)
  | 0xC#4 => decodeJmp (regField8 w)
  | 0xD#4 => .res
  | 0xE#4 => .lea (regField11 w) (off9Field w)
  | _ => decodeTrap (vectorField w)

/-- Why a sequence of words gives no instruction. Safe: nothing runs. -/
inductive DecodeReject where
  /-- There is no word to decode; no other rejection exists, since `decode` is total (R86). -/
  | noWord
  deriving DecidableEq, Repr

/-- The Decoder on a sequence of words: one instruction is one word (R80), the rest is left over. -/
def decodeWords : List Word → Except DecodeReject (Instr × List Word)
  | [] => .error .noWord
  | w :: rest => .ok (decode w, rest)

/-- The host's reading of a table word: bit 0 of `w` is bit 0 of the one 16-bit word. An instruction is never longer
than 16 bits (R80), so a row of more bits is no instruction; fewer bits leave the rest 0. -/
def decodeTableWord (nbits w : Nat) : Option Instr :=
  if nbits ≤ 16 then some (decode (BitVec.ofNat 16 (w % 2 ^ nbits))) else none

/-! The encoder, from the formats of R83, with the ignored bits as R91 writes them: 0, but 111111 for NOT. -/

/-- A field with its lowest bit at bit `lo` of a word, every other bit 0 (R82). -/
def place {n : Nat} (f : BitVec n) (lo : Nat) : Word := f.setWidth 16 <<< lo

/-- Format OPR. -/
def encOpr (op : BitVec 4) (dr sr1 sr2 : Reg) : Word :=
  place op 12 ||| place dr.field 9 ||| place sr1.field 6 ||| place sr2.field 0
/-- Format OPI, mode bit [5] = 1. -/
def encOpi (op : BitVec 4) (dr sr1 : Reg) (imm5 : BitVec 5) : Word :=
  place op 12 ||| place dr.field 9 ||| place sr1.field 6 ||| place 1#1 5 ||| place imm5 0
/-- Format PC9; BR has the mask where the others have a register. -/
def encPc9 (op : BitVec 4) (f : BitVec 3) (off9 : BitVec 9) : Word := place op 12 ||| place f 9 ||| place off9 0
/-- Format BASE6. -/
def encBase6 (op : BitVec 4) (r baseR : Reg) (off6 : BitVec 6) : Word :=
  place op 12 ||| place r.field 9 ||| place baseR.field 6 ||| place off6 0
/-- Formats JMP and JSRR, whose one field is BaseR (the mode bit [11] of JSRR is 0). -/
def encBase (op : BitVec 4) (baseR : Reg) : Word := place op 12 ||| place baseR.field 6
/-- Format TRAP. -/
def encTrap (vec : BitVec 8) : Word := place 0xF#4 12 ||| place vec 0

/-- The word of an instruction (R83, R85, R91). -/
def encode : Instr → Word
  | .addReg dr sr1 sr2 => encOpr 0x1#4 dr sr1 sr2
  | .addImm dr sr1 imm5 => encOpi 0x1#4 dr sr1 imm5
  | .andReg dr sr1 sr2 => encOpr 0x5#4 dr sr1 sr2
  | .andImm dr sr1 imm5 => encOpi 0x5#4 dr sr1 imm5
  | .not dr sr1 => place 0x9#4 12 ||| place dr.field 9 ||| place sr1.field 6 ||| place 0b111111#6 0
  | .br mask off9 => encPc9 0x0#4 mask off9
  | .ret => encBase 0xC#4 .r7
  | .jmp baseR => encBase 0xC#4 baseR
  | .jsr off11 => place 0x4#4 12 ||| place 1#1 11 ||| place off11 0
  | .jsrr baseR => encBase 0x4#4 baseR
  | .ld dr off9 => encPc9 0x2#4 dr.field off9
  | .ldi dr off9 => encPc9 0xA#4 dr.field off9
  | .ldr dr baseR off6 => encBase6 0x6#4 dr baseR off6
  | .lea dr off9 => encPc9 0xE#4 dr.field off9
  | .st sr off9 => encPc9 0x3#4 sr.field off9
  | .sti sr off9 => encPc9 0xB#4 sr.field off9
  | .str sr baseR off6 => encBase6 0x7#4 sr baseR off6
  | .getc => encTrap 0x20#8
  | .out => encTrap 0x21#8
  | .puts => encTrap 0x22#8
  | .inChar => encTrap 0x23#8
  | .putsp => encTrap 0x24#8
  | .halt => encTrap 0x25#8
  | .trap vec => encTrap vec
  | .rti => place 0x8#4 12
  | .res => place 0xD#4 12

/-- The bits no field of the instruction's format covers, set to 1 (R87). -/
def ignoredBits : Instr → Word
  | .addReg _ _ _ | .andReg _ _ _ => 0x0018#16
  | .not _ _ => 0x003F#16
  | .ret | .jmp _ => 0x0E3F#16
  | .jsrr _ => 0x063F#16
  | .getc | .out | .puts | .inChar | .putsp | .halt | .trap _ => 0x0F00#16
  | .rti | .res => 0x0FFF#16
  | .addImm _ _ _ | .andImm _ _ _ | .br _ _ | .jsr _ => 0x0000#16
  | .ld _ _ | .ldi _ _ | .ldr _ _ _ | .lea _ _ | .st _ _ | .sti _ _ | .str _ _ _ => 0x0000#16

/-- One row of the opcode table: the words with `w &&& mask = pattern` are `name`'s. -/
structure OpcodeRow where
  name : String
  pattern : Word
  mask : Word
  deriving DecidableEq, Repr

/-- spec/opcode_table.json, row by row and in its order: operate and control. -/
def operateControlRows : List OpcodeRow := [
  ⟨"ADD", 0x1000#16, 0xF020#16⟩, ⟨"ADD", 0x1020#16, 0xF020#16⟩, ⟨"AND", 0x5000#16, 0xF020#16⟩,
  ⟨"AND", 0x5020#16, 0xF020#16⟩, ⟨"NOT", 0x9000#16, 0xF000#16⟩, ⟨"BR", 0x0000#16, 0xF000#16⟩,
  ⟨"RET", 0xC1C0#16, 0xF1C0#16⟩, ⟨"JMP", 0xC000#16, 0xF000#16⟩, ⟨"JSR", 0x4800#16, 0xF800#16⟩,
  ⟨"JSRR", 0x4000#16, 0xF800#16⟩]

/-- The rows of the loads and stores. -/
def loadStoreRows : List OpcodeRow := [
  ⟨"LD", 0x2000#16, 0xF000#16⟩, ⟨"LDI", 0xA000#16, 0xF000#16⟩, ⟨"LDR", 0x6000#16, 0xF000#16⟩,
  ⟨"LEA", 0xE000#16, 0xF000#16⟩, ⟨"ST", 0x3000#16, 0xF000#16⟩, ⟨"STI", 0xB000#16, 0xF000#16⟩,
  ⟨"STR", 0x7000#16, 0xF000#16⟩]

/-- The rows of TRAP, RTI and RES. -/
def trapRows : List OpcodeRow := [
  ⟨"GETC", 0xF020#16, 0xF0FF#16⟩, ⟨"OUT", 0xF021#16, 0xF0FF#16⟩, ⟨"PUTS", 0xF022#16, 0xF0FF#16⟩,
  ⟨"IN", 0xF023#16, 0xF0FF#16⟩, ⟨"PUTSP", 0xF024#16, 0xF0FF#16⟩, ⟨"HALT", 0xF025#16, 0xF0FF#16⟩,
  ⟨"TRAP", 0xF000#16, 0xF000#16⟩, ⟨"RTI", 0x8000#16, 0xF000#16⟩, ⟨"RES", 0xD000#16, 0xF000#16⟩]

/-- The opcode table, 26 rows, first match wins. -/
def opcodeTable : List OpcodeRow := operateControlRows ++ loadStoreRows ++ trapRows

/-- The name of the first row that matches a word. -/
def tableName (w : Word) : Option String := (opcodeTable.find? fun r => w &&& r.mask == r.pattern).map (·.name)

/-- The opcode table's mnemonic of an instruction. -/
def Instr.mnemonic : Instr → String
  | .addReg _ _ _ | .addImm _ _ _ => "ADD"
  | .andReg _ _ _ | .andImm _ _ _ => "AND"
  | .not _ _ => "NOT"
  | .br _ _ => "BR"
  | .ret => "RET"
  | .jmp _ => "JMP"
  | .jsr _ => "JSR"
  | .jsrr _ => "JSRR"
  | .ld _ _ => "LD"
  | .ldi _ _ => "LDI"
  | .ldr _ _ _ => "LDR"
  | .lea _ _ => "LEA"
  | .st _ _ => "ST"
  | .sti _ _ => "STI"
  | .str _ _ _ => "STR"
  | .getc => "GETC"
  | .out => "OUT"
  | .puts => "PUTS"
  | .inChar => "IN"
  | .putsp => "PUTSP"
  | .halt => "HALT"
  | .trap _ => "TRAP"
  | .rti => "RTI"
  | .res => "RES"

end Sys2Proof
end

