-- ==== Sys2Proof/Config.lean ====
section
/-! DEFINITION. The parameters the running machine consults (00_scope.md R8, the rows of kind "argument").
START_PC, MEM_INIT, RESET_COND and the first KBQ are arguments of the reset alone: Machine/State.lean. -/

namespace Sys2Proof

/-- The parameters of a machine, constant during a run. State holds one, so a claim about every state is a claim
about every choice of them (log 5). -/
structure Config where
  /-- KBSR_ADDR, the keyboard status cell. -/
  kbsrAddr : Word
  /-- KBDR_ADDR, the keyboard data cell. -/
  kbdrAddr : Word
  /-- IN_PROMPT, the bytes the IN trap writes before it waits (45_trap.md R217). -/
  inPrompt : List Byte
  deriving DecidableEq, Repr

/-- The defaults of R8 and R217: 0xFE00, 0xFE02, and the 19 bytes of `Enter a character: `. -/
def Config.standard : Config where
  kbsrAddr := 0xFE00#16
  kbdrAddr := 0xFE02#16
  inPrompt := [0x45#8, 0x6E#8, 0x74#8, 0x65#8, 0x72#8, 0x20#8, 0x61#8, 0x20#8, 0x63#8, 0x68#8, 0x61#8, 0x72#8,
    0x61#8, 0x63#8, 0x74#8, 0x65#8, 0x72#8, 0x3A#8, 0x20#8]

/-- The one constraint on the parameters: KBDR_ADDR "must differ from KBSR_ADDR" (R8). -/
abbrev Config.wf (c : Config) : Prop := c.kbsrAddr ≠ c.kbdrAddr

end Sys2Proof
end

