-- ==== Sys2Proof/Machine/State.lean ====
section
/-! DEFINITION. The state of the machine (10_state.md), as plain data, and its reset (10_state.md R36,
70_reset_and_hazards.md R280, R281). -/

namespace Sys2Proof.Machine

/-- The general registers R0 to R7 (R20). -/
structure Regs where
  r0 : Word
  r1 : Word
  r2 : Word
  r3 : Word
  r4 : Word
  r5 : Word
  r6 : Word
  r7 : Word
  deriving DecidableEq, Repr

/-- Memory: the cells that differ from the reset contents, as (address, cell) pairs. The smallest unit with an address
is the 16-bit cell (R30), so an entry is a cell and not a byte (log 1). Ops.lean gives the canonical form. -/
abbrev Memory := List (Nat × Word)

/-- RUN, the state of the Interpreter Loop (R27). -/
inductive RunState where
  | running
  | halted
  deriving DecidableEq, Repr

/-- HALT_CAUSE (R27): why the machine is Halted. -/
inductive HaltCause where
  /-- 0 NONE: at reset and while Running. -/
  | none
  /-- 1 HALT_TRAP: TRAP x25. -/
  | haltTrap
  /-- 2 EXT_STOP: the external stop request. -/
  | extStop
  /-- 3 ERR_RTI. -/
  | errRti
  /-- 4 ERR_RES. -/
  | errRes
  /-- 5 ERR_BAD_TRAP: TRAP with a vector outside 0x20 to 0x25. -/
  | errBadTrap
  deriving DecidableEq, Repr

/-- One event of the console output trace (R32). -/
inductive OutEvent where
  /-- A byte given to the output collaborator's `write_char`. -/
  | write (b : Byte)
  /-- A byte given to the input collaborator's `echo`. -/
  | echo (b : Byte)
  deriving DecidableEq, Repr

/-- Everything the spec gives the machine: the machine state and the environment state of 10_state.md's head, with the
parameters (log 5). Between steps `pc` is the address of the next instruction; a meaning of Machine/<Family>.lean also
finds the executing instruction's own address there (log 4). -/
structure State where
  /-- R0 to R7 (R20). -/
  regs : Regs
  /-- PC (R22). -/
  pc : Word
  /-- COND: bit 2 N, bit 1 Z, bit 0 P (R24). -/
  cond : BitVec 3
  /-- M, the device cells KBSR and KBDR among it (R30, R31). -/
  mem : Memory
  /-- RUN (R27). -/
  run : RunState
  /-- HALT_CAUSE (R27). -/
  haltCause : HaltCause
  /-- PROMPTED: an IN trap has written its prompt and still waits (R29). -/
  prompted : Bool
  /-- KBQ, the keyboard input queue, head first (R32). -/
  kbq : List Byte
  /-- OUT, the console output trace, oldest event first (R32). -/
  out : List OutEvent
  /-- The input `stop_req` as the next step samples it (R34; 40_instruction_cycle.md R112). -/
  stopReq : Bool
  /-- KBSR_ADDR, KBDR_ADDR and IN_PROMPT (00_scope.md R8). -/
  config : Config
  deriving DecidableEq, Repr

/-- Why a step has no next state. -/
inductive Fault where
  /-- STUCK, not an error of the machine: PUTS or PUTSP read 65536 cells and found no zero cell, so the instruction never
  finishes (45_trap.md R216: "a hang (an instruction with no next state)"). Raised by `execPuts`, `execPutsp` and by
  `execTrap` on their vectors. Safe: nothing after it can be proved (log 2, log 3). -/
  | stuckStringScan
  deriving DecidableEq, Repr

/-- Why an instruction has no meaning. -/
inductive Refusal where
  /-- Raised by `exec` for an instruction not modelled yet; no arm of this model raises it. Safe: nothing runs. -/
  | notModelled (mnemonic : String)
  deriving DecidableEq, Repr

/-- The arguments of the reset (00_scope.md R8; R36): START_PC, RESET_COND, MEM_INIT, and the bytes the HOST has already
put in KBQ. -/
structure ResetArgs where
  startPc : Word
  resetCond : BitVec 3
  memInit : Memory
  kbq : List Byte
  deriving DecidableEq, Repr

/-- The defaults of R8: START_PC 0x3000, RESET_COND 0b000, no image; KBQ empty (DESIGN CHOICE, log 7). -/
def ResetArgs.standard : ResetArgs where
  startPc := 0x3000#16
  resetCond := 0b000#3
  memInit := []
  kbq := []

/-- The state when the first step begins, from the arguments (R36; 70_reset_and_hazards.md R280, R281). `stop_req` is an
input and has no reset value; it is low (DESIGN CHOICE, log 8). -/
def State.resetWith (c : Config) (a : ResetArgs) : State where
  regs := ⟨0#16, 0#16, 0#16, 0#16, 0#16, 0#16, 0#16, 0#16⟩
  pc := a.startPc
  cond := a.resetCond
  mem := a.memInit
  run := .running
  haltCause := .none
  prompted := false
  kbq := a.kbq
  out := []
  stopReq := false
  config := c

/-- The machine right after reset with the default arguments and no image loaded. -/
def State.reset : State := State.resetWith Config.standard ResetArgs.standard

end Sys2Proof.Machine
end

