-- ==== Sys2Proof/Machine/Ops.lean ====
section
/-! DEFINITION. The named operations over memory, registers, the keyboard device and the ports; the ways a handler
ends (completes, HOLD, raise); the fetch. -/

namespace Sys2Proof.Machine

/-- How a step or an instruction answers. -/
abbrev Result := Host.Outcome State Fault Refusal

/-! ### Memory (20_memory.md R50) -/

/-- What a cell that is not listed reads as: the reset contents 0x0000 (10_state.md R36). -/
def Memory.unlisted : Word := 0x0000#16

/-- The content of the cell at an address. -/
def Memory.read : Memory → Nat → Word
  | [], _ => Memory.unlisted
  | (b, w) :: rest, a => if a = b then w else Memory.read rest a

/-- The memory without the cell at an address: it reads as unlisted. -/
def Memory.erase : Memory → Nat → Memory
  | [], _ => []
  | (b, w) :: rest, a => if b = a then Memory.erase rest a else (b, w) :: Memory.erase rest a

/-- The memory with a cell listed before the first address that is not lower. -/
def Memory.insert : Memory → Nat → Word → Memory
  | [], a, v => [(a, v)]
  | (b, w) :: rest, a, v => if a ≤ b then (a, v) :: (b, w) :: rest else (b, w) :: Memory.insert rest a v

/-- Replace the content of one cell, keeping the addresses rising and listing no cell that reads as an unlisted one. -/
def Memory.write (m : Memory) (a : Nat) (v : Word) : Memory :=
  if v = Memory.unlisted then m.erase a else (m.erase a).insert a v

/-- Every address of the memory lies in `lo` to 0xFFFF, they rise strictly, and no cell reads as an unlisted one. -/
def Memory.wfFrom : Nat → Memory → Bool
  | _, [] => true
  | lo, (a, v) :: rest => decide (lo ≤ a) && decide (a < 65536) && decide (v ≠ Memory.unlisted) && Memory.wfFrom (a + 1) rest

/-- The canonical form of a memory: equal contents are equal lists. -/
def Memory.wf (m : Memory) : Bool := Memory.wfFrom 0 m

/-- M[a], the raw content of a cell with no side effect (00_scope.md R12). -/
def State.peek (s : State) (a : Word) : Word := s.mem.read a.toNat

/-- `MemWrite(a, v)`: M[a] <- v and nothing else, for every address (20_memory.md R53). -/
def State.memWrite (s : State) (a v : Word) : State := { s with mem := s.mem.write a.toNat v }

/-! ### Registers (10_state.md R20) -/

/-- The content of a general register; none is hardwired. -/
def Regs.get (g : Regs) : Reg → Word
  | .r0 => g.r0
  | .r1 => g.r1
  | .r2 => g.r2
  | .r3 => g.r3
  | .r4 => g.r4
  | .r5 => g.r5
  | .r6 => g.r6
  | .r7 => g.r7

/-- The register file with one register written. -/
def Regs.set (g : Regs) (r : Reg) (v : Word) : Regs :=
  match r with
  | .r0 => { g with r0 := v }
  | .r1 => { g with r1 := v }
  | .r2 => { g with r2 := v }
  | .r3 => { g with r3 := v }
  | .r4 => { g with r4 := v }
  | .r5 => { g with r5 := v }
  | .r6 => { g with r6 := v }
  | .r7 => { g with r7 := v }

/-- `R[r]`. -/
def State.reg (s : State) (r : Reg) : Word := s.regs.get r

/-- `R[r] <- v`. -/
def State.setReg (s : State) (r : Reg) (v : Word) : State := { s with regs := s.regs.set r v }

/-- `COND <- c`. -/
def State.setCond (s : State) (c : BitVec 3) : State := { s with cond := c }

/-- `PC <- a`. -/
def State.setPc (s : State) (a : Word) : State := { s with pc := a }

/-- PC' = A + 1 mod 2^16, with A still in `pc` (00_scope.md R13; 40_instruction_cycle.md R114: "A model may hold PC' in a
local value and commit it to PC only when the handler completes"). -/
def State.nextPc (s : State) : Word := s.pc + 1#16

/-! ### Ports (10_state.md R33) -/

/-- `kb_poll()`: a character is available; changes nothing. -/
def State.kbPoll (s : State) : Bool := !s.kbq.isEmpty

/-- KBQ with other bytes in it: what `kb_read()` leaves. -/
def State.setKbq (s : State) (q : List Byte) : State := { s with kbq := q }

/-- Append events to OUT, in their order: `out_write` and `kb_echo`. It never blocks and never fails (D24). -/
def State.emit (s : State) (es : List OutEvent) : State := { s with out := s.out ++ es }

/-- The latch PROMPTED (10_state.md R29). -/
def State.setPrompted (s : State) (b : Bool) : State := { s with prompted := b }

/-- A byte as the 16-bit value that holds it, `zext_8` (00_scope.md R11; 45_trap.md R212). -/
def zext8 (b : Byte) : Word := b.setWidth 16

/-- Bits [7:0] of a word. -/
def lowByte (w : Word) : Byte := w.extractLsb' 0 8

/-- Bits [15:8] of a word. -/
def highByte (w : Word) : Byte := w.extractLsb' 8 8

/-! ### The keyboard device (20_memory.md R52, R54) -/

/-- The poll that a read of KBSR_ADDR makes: with a character pending, KBSR <- 0x8000 and KBDR <- the character, taken
from KBQ; with none, KBSR <- 0x0000 and KBDR is not touched. -/
def State.pollKeyboard (s : State) : State :=
  match s.kbq with
  | [] => s.memWrite s.config.kbsrAddr 0x0000#16
  | c :: rest => ((s.memWrite s.config.kbsrAddr 0x8000#16).memWrite s.config.kbdrAddr (zext8 c)).setKbq rest

/-- `MemRead(a)`: poll first when the address is KBSR_ADDR, then the content of the cell (R52). Every read the core makes
goes through it (R56). -/
def State.memRead (s : State) (a : Word) : Word × State :=
  if a = s.config.kbsrAddr then (s.pollKeyboard.peek a, s.pollKeyboard) else (s.peek a, s)

/-- The fetch: `w <- MemRead(PC)` (40_instruction_cycle.md R113). -/
def State.fetch (s : State) : Word × State := s.memRead s.pc

/-! ### How a handler ends (40_instruction_cycle.md R110, R116, R117) -/

/-- The handler completes and has not assigned PC: PC = PC'. -/
def complete (s : State) : Result := .next (s.setPc s.nextPc)

/-- The handler completes with a target in PC. -/
def completeAt (s : State) (target : Word) : Result := .next (s.setPc target)

/-- HOLD: the step ends, PC stays A, and the next step starts the same instruction again (R116). -/
def hold (s : State) : Result := .next s

/-- Entry to Halted with a cause: RUN and HALT_CAUSE, nothing else (60_exceptions.md R253, R256). -/
def State.haltWith (s : State) (c : HaltCause) : State := { s with run := .halted, haltCause := c }

/-- `raise DecodeError(c)`, the one exception of the machine (60_exceptions.md R255, R256): RUN <- Halted,
HALT_CAUSE <- c; it saves nothing, PC stays at the offending word. No return from it exists (R259). -/
def raiseDecodeError (c : HaltCause) (s : State) : Result := .next (s.haltWith c)

/-- `stop_req` as the HOST drives it. -/
def State.setStopReq (s : State) (b : Bool) : State := { s with stopReq := b }

end Sys2Proof.Machine
end

