-- ==== Sys2Proof/Machine/Flags.lean ====
section
/-! DEFINITION. The condition flags (10_state.md R24 to R26): computing them, writing them, testing them. -/

namespace Sys2Proof.Machine

/-- The flags of a stored value: N when its top bit is set, else Z when it is zero, else P (R25). -/
def condOf (v : Word) : BitVec 3 :=
  if v.getLsbD 15 then 0b100#3 else if v = 0x0000#16 then 0b010#3 else 0b001#3

/-- `setcc(v)` (R25). -/
def State.setcc (s : State) (v : Word) : State := s.setCond (condOf v)

/-- `R[DR] <- v; setcc(v)`: the last two actions of every destination-writing opcode (40_instruction_cycle.md R118). -/
def State.writeDest (s : State) (dr : Reg) (v : Word) : State := (s.setReg dr v).setcc v

/-- The test of BR: cond-mask AND current flags is not zero (42_control.md R153). -/
def branchTaken (mask cond : BitVec 3) : Bool := decide (mask &&& cond ≠ 0b000#3)

end Sys2Proof.Machine
end

