-- ==== Sys2Proof/Machine/Operands.lean ====
section
/-! DEFINITION. Operand forms: sign extension (00_scope.md R11), the ALU (41_operate.md R130) and the memory address
unit (43_load.md R170). -/

namespace Sys2Proof.Machine

/-- `sext_N`: the low N bits are the field, every higher bit is its top bit (R11). -/
def sext {n : Nat} (f : BitVec n) : Word := f.signExtend 16

/-- The three operations of the ALU (R130). -/
inductive AluOp where
  | add
  | and
  | not
  deriving DecidableEq, Repr

/-- The ALU: addition modulo 2^16, bitwise AND, bitwise NOT of the first operand; no other output (R130, R131). -/
def alu : AluOp → Word → Word → Word
  | .add, a, b => a + b
  | .and, a, b => a &&& b
  | .not, a, _ => ~~~a

/-- PC-relative effective address or target: PC' + sext(off) modulo 2^16 (R170 (a); 42_control.md R151). -/
def State.pcRelative {n : Nat} (s : State) (off : BitVec n) : Word := s.nextPc + sext off

/-- Base plus offset: R[BaseR] + sext_6(offset6) modulo 2^16 (R170 (b)). -/
def State.baseOffset (s : State) (baseR : Reg) (off6 : BitVec 6) : Word := s.reg baseR + sext off6

/-- Indirect: the effective address is the content of a PC-relative pointer cell, read by MemRead (R170 (c)). -/
def State.indirect (s : State) (off9 : BitVec 9) : Word × State := s.memRead (s.pcRelative off9)

end Sys2Proof.Machine
end

