-- ==== Sys2Proof/Machine/Control.lean ====
section
/-! DEFINITION. BR, JMP, RET, JSR, JSRR (42_control.md). None writes COND or memory, none raises an exception (R150). -/

namespace Sys2Proof.Machine

/-- `R[7] <- PC'`: the link of JSR, JSRR and every completed TRAP (R152; 45_trap.md R210). -/
def State.link (s : State) : State := s.setReg .r7 s.nextPc

/-- BR (R153). -/
def execBr (mask : BitVec 3) (off9 : BitVec 9) (s : State) : Result :=
  if branchTaken mask s.cond then completeAt s (s.pcRelative off9) else complete s

/-- RET: PC <- R[7] (R155). -/
def execRet (s : State) : Result := completeAt s (s.reg .r7)

/-- JMP: PC <- R[BaseR], whatever BaseR is (R154). -/
def execJmp (baseR : Reg) (s : State) : Result := completeAt s (s.reg baseR)

/-- JSR: R7 <- PC', then PC <- PC' + sext_11(off) (R156). -/
def execJsr (off11 : BitVec 11) (s : State) : Result := completeAt s.link (s.pcRelative off11)

/-- JSRR: R7 <- PC', then PC <- R[BaseR], the base read after the write of R7 (R157, D22). -/
def execJsrr (baseR : Reg) (s : State) : Result := completeAt s.link (s.link.reg baseR)

end Sys2Proof.Machine
end

