-- ==== Sys2Proof/Machine/Load.lean ====
section
/-! DEFINITION. LD, LDI, LDR, LEA (43_load.md). -/

namespace Sys2Proof.Machine

/-- Common to LD, LDI, LDR: one whole cell is read by MemRead, then DR and the flags are written last (R171). -/
def loadFrom (dr : Reg) (ea : Word) (s : State) : Result := complete ((s.memRead ea).2.writeDest dr (s.memRead ea).1)

/-- LD (R173). -/
def execLd (dr : Reg) (off9 : BitVec 9) (s : State) : Result := loadFrom dr (s.pcRelative off9) s

/-- LDI: two reads, the pointer first (R174). -/
def execLdi (dr : Reg) (off9 : BitVec 9) (s : State) : Result := loadFrom dr (s.indirect off9).1 (s.indirect off9).2

/-- LDR (R175). -/
def execLdr (dr baseR : Reg) (off6 : BitVec 6) (s : State) : Result := loadFrom dr (s.baseOffset baseR off6) s

/-- LEA: the address itself, with its flags; no memory access (R176). -/
def execLea (dr : Reg) (off9 : BitVec 9) (s : State) : Result := complete (s.writeDest dr (s.pcRelative off9))

end Sys2Proof.Machine
end

