-- ==== Sys2Proof/Machine/Operate.lean ====
section
/-! DEFINITION. ADD, AND, NOT (41_operate.md). -/

namespace Sys2Proof.Machine

/-- Common to the five forms: the sources are read before the destination is written, then setcc, then PC = PC' (R132). -/
def operate (op : AluOp) (dr : Reg) (a b : Word) (s : State) : Result := complete (s.writeDest dr (alu op a b))

/-- ADD, register mode (R133). -/
def execAddReg (dr sr1 sr2 : Reg) (s : State) : Result := operate .add dr (s.reg sr1) (s.reg sr2) s

/-- ADD, immediate mode (R134). -/
def execAddImm (dr sr1 : Reg) (imm5 : BitVec 5) (s : State) : Result := operate .add dr (s.reg sr1) (sext imm5) s

/-- AND, register mode (R135). -/
def execAndReg (dr sr1 sr2 : Reg) (s : State) : Result := operate .and dr (s.reg sr1) (s.reg sr2) s

/-- AND, immediate mode: the immediate is sign-extended first (R136). -/
def execAndImm (dr sr1 : Reg) (imm5 : BitVec 5) (s : State) : Result := operate .and dr (s.reg sr1) (sext imm5) s

/-- NOT; the second operand of the ALU is unused (R137, R130). -/
def execNot (dr sr1 : Reg) (s : State) : Result := operate .not dr (s.reg sr1) (s.reg sr1) s

end Sys2Proof.Machine
end

