-- ==== Sys2Proof/Machine/Store.lean ====
section
/-! DEFINITION. ST, STI, STR (44_store.md). A store writes one whole cell, no register and no flag (R190). -/

namespace Sys2Proof.Machine

/-- Common to the three stores: MemWrite(ea, v), then PC = PC' (R190). -/
def storeTo (ea v : Word) (s : State) : Result := complete (s.memWrite ea v)

/-- ST (R191). -/
def execSt (sr : Reg) (off9 : BitVec 9) (s : State) : Result := storeTo (s.pcRelative off9) (s.reg sr) s

/-- STI: one read, the pointer; one write, the data (R192). -/
def execSti (sr : Reg) (off9 : BitVec 9) (s : State) : Result :=
  storeTo (s.indirect off9).1 ((s.indirect off9).2.reg sr) (s.indirect off9).2

/-- STR (R193). -/
def execStr (sr baseR : Reg) (off6 : BitVec 6) (s : State) : Result := storeTo (s.baseOffset baseR off6) (s.reg sr) s

end Sys2Proof.Machine
end

