-- ==== Sys2Proof/Machine/Trap.lean ====
section
/-! DEFINITION. The Trap Dispatcher (45_trap.md): the six routines, and TRAP with any vector. No routine writes COND, R1 to
R6 or (but for the device's rewrite at KBSR_ADDR) a memory cell (R211). -/

namespace Sys2Proof.Machine

/-- The events of bytes written to the console. -/
def writes (bs : List Byte) : List OutEvent := bs.map .write

/-- What PUTS writes for a cell: its low byte (R215). -/
def putsBytes (x : Word) : List Byte := [lowByte x]

/-- What PUTSP writes for a cell: its low byte always, then its high byte if that is not zero (R218). -/
def putspBytes (x : Word) : List Byte := if highByte x = 0x00#8 then [lowByte x] else [lowByte x, highByte x]

/-- How many cells a string scan may read: one turn round the address space (R216). -/
def scanLimit : Nat := 65536

/-- The loop of PUTS and PUTSP: read a cell by MemRead, stop at a whole zero cell, else write its bytes and go to the next
address modulo 2^16 (R215, R218). `none` when the fuel runs out. -/
def scanString (bytesOf : Word → List Byte) : Nat → Word → State → Option State
  | 0, _, _ => none
  | fuel + 1, a, s =>
    if (s.memRead a).1 = 0x0000#16 then some (s.memRead a).2
    else scanString bytesOf fuel (a + 1#16) ((s.memRead a).2.emit (writes (bytesOf (s.memRead a).1)))

/-- PUTS and PUTSP: link, scan from R[0] (a copy, R0 is not changed), PC = PC'; a scan that finds no zero cell has no next
state (R215, R216, R218). -/
def putString (bytesOf : Word → List Byte) (s : State) : Result :=
  match scanString bytesOf scanLimit (s.link.reg .r0) s.link with
  | some t => complete t
  | none => .fault .stuckStringScan

/-- A character arrives in a trap routine: R7 <- PC', R0 <- zext_8(c), KBQ loses its head (R213, R217). -/
def State.takeChar (s : State) (c : Byte) (rest : List Byte) : State := (s.link.setKbq rest).setReg .r0 (zext8 c)

/-- GETC: hold while no character is available, else take one; no echo (R213). -/
def execGetc (s : State) : Result :=
  match s.kbq with
  | [] => hold s
  | c :: rest => complete (s.takeChar c rest)

/-- OUT: write the low byte of R0 (R214). -/
def execOut (s : State) : Result := complete (s.link.emit (writes [lowByte (s.link.reg .r0)]))

/-- PUTS (R215). -/
def execPuts (s : State) : Result := putString putsBytes s

/-- The first act of IN: unless PROMPTED, write IN_PROMPT and set PROMPTED (R217). -/
def State.prompt (s : State) : State :=
  if s.prompted then s else (s.emit (writes s.config.inPrompt)).setPrompted true

/-- IN: prompt once, hold while no character is available, else take one and echo it (R217). -/
def execIn (s : State) : Result :=
  match s.prompt.kbq with
  | [] => hold s.prompt
  | c :: rest => complete (((s.prompt.emit [.echo c]).takeChar c rest).setPrompted false)

/-- PUTSP (R218). -/
def execPutsp (s : State) : Result := putString putspBytes s

/-- HALT: link, PC = PC', RUN <- Halted with cause HALT_TRAP; no output (R219, D18). -/
def execHalt (s : State) : Result := complete (s.link.haltWith .haltTrap)

/-- TRAP with any vector: a recognised vector is its routine, any other the fatal decode error, with R7 not written
(R210, R220). The decoder gives this row only unrecognised vectors (log 12). -/
def execTrap (vec : BitVec 8) (s : State) : Result :=
  match vec with
  | 0x20#8 => execGetc s
  | 0x21#8 => execOut s
  | 0x22#8 => execPuts s
  | 0x23#8 => execIn s
  | 0x24#8 => execPutsp s
  | 0x25#8 => execHalt s
  | _ => raiseDecodeError .errBadTrap s

end Sys2Proof.Machine
end

