-- ==== Sys2Proof/Machine/Unsupported.lean ====
section
/-! DEFINITION. RTI and RES: each handler's whole effect is the fatal decode error (46_rti_res.md). -/

namespace Sys2Proof.Machine

/-- RTI: `raise DecodeError(ERR_RTI)`; it returns from nothing (R240). -/
def execRti (s : State) : Result := raiseDecodeError .errRti s

/-- RES: `raise DecodeError(ERR_RES)` (R241). -/
def execRes (s : State) : Result := raiseDecodeError .errRes s

end Sys2Proof.Machine
end

