-- ==== Sys2Proof/Machine/Step.lean ====
section
/-! DEFINITION. The step of the machine (40_instruction_cycle.md R110 to R117). -/

namespace Sys2Proof.Machine

/-- One step: nothing when Halted (R111); else the stop request, sampled before the fetch (R112); else fetch, decode and
execute one instruction (R113 to R115). -/
def step (s : State) : Host.Outcome State Fault Refusal :=
  match s.run with
  | .halted => .next s
  | .running =>
    if s.stopReq then .next (s.haltWith .extStop)
    else exec (decode s.fetch.1) s.fetch.2

/-- The state whose next step fetches and runs the word `w` of `nbits` bits: the word stands in the cell at PC, the
machine is Running and no stop is requested. At reset only the cell changes. With PC = KBSR_ADDR no word can be placed:
the fetch polls and rewrites the cell (20_memory.md R56; log 11). -/
def State.withFetchWord (s : State) (nbits w : Nat) : State :=
  { s.memWrite s.pc (BitVec.ofNat 16 (w % 2 ^ nbits)) with run := .running, haltCause := .none, stopReq := false }

end Sys2Proof.Machine
end

