-- ==== Sys2Proof/Machine/Loader.lean ====
section
/-! DEFINITION. Building MEM_INIT from images (20_memory.md R51 (a), R68; 70_reset_and_hazards.md R281, step 3). The loader
is outside the core (00_scope.md R5 (a)); no step uses this file. -/

namespace Sys2Proof.Machine

/-- An image: where it lies and its words. -/
structure Image where
  origin : Word
  words : List Word
  deriving DecidableEq, Repr

/-- Big-endian: file bytes b0 b1 are the word b0 * 256 + b1 (R51). A last single byte is no word (log 13). -/
def wordsOfBytes : List Byte → List Word
  | b0 :: b1 :: rest => (b0 ++ b1) :: wordsOfBytes rest
  | [_] => []
  | [] => []

/-- An image file: the origin word, then the words (R68); without an origin word there is no image. -/
def parseImage (bytes : List Byte) : Option Image :=
  match wordsOfBytes bytes with
  | [] => none
  | origin :: words => some ⟨origin, words⟩

/-- Words laid down from an address upwards; "loading stops at end of file or at address 0xFFFF" (R68). Whether the cell
at 0xFFFF is itself loaded is not stated (N10): the argument `lastCell` says, so a claim holds for both. -/
def Memory.loadWords (lastCell : Bool) : Nat → List Word → Memory → Memory
  | _, [], m => m
  | a, w :: ws, m =>
    if a < 0xFFFF then Memory.loadWords lastCell (a + 1) ws (m.write a w)
    else if a = 0xFFFF ∧ lastCell = true then m.write a w
    else m

/-- Images "in load order, each overlaying Memory at its own origin" (R68, R281). -/
def Memory.loadImages (lastCell : Bool) : List Image → Memory → Memory
  | [], m => m
  | i :: rest, m => Memory.loadImages lastCell rest (m.loadWords lastCell i.origin.toNat i.words)

end Sys2Proof.Machine
end

