-- ==== Sys2Proof/Machine/HostMoves.lean ====
section
/-! DEFINITION. What the HOST may do between two steps, and nothing else (00_scope.md R7; 40_instruction_cycle.md R121). -/

namespace Sys2Proof.Machine

/-- A move of the HOST. -/
inductive HostMove where
  /-- Append one byte to the end of KBQ. -/
  | appendKey (b : Byte)
  /-- Raise or lower `stop_req`. -/
  | driveStop (level : Bool)
  deriving DecidableEq, Repr

/-- The state after a move of the HOST (R121). -/
def hostMove (m : HostMove) (s : State) : State :=
  match m with
  | .appendKey b => s.setKbq (s.kbq ++ [b])
  | .driveStop level => s.setStopReq level

end Sys2Proof.Machine
end

