-- ==== Sys2Proof/Safety.lean ====
section
/-! DEFINITION. The words claims are stated in: the machine's invariant, its runs with the HOST's moves between steps, how a
step ends, and what an instruction leaves unchanged. -/

namespace Sys2Proof

/-! ### Which registers an instruction reads and writes (10_state.md R21) -/

/-- The general registers an instruction reads. -/
def Instr.regReads : Instr → List Reg
  | .addReg _ sr1 sr2 | .andReg _ sr1 sr2 => [sr1, sr2]
  | .addImm _ sr1 _ | .andImm _ sr1 _ | .not _ sr1 => [sr1]
  | .br _ _ | .jsr _ | .ld _ _ | .ldi _ _ | .lea _ _ => []
  | .ret => [.r7]
  | .jmp baseR | .jsrr baseR | .ldr _ baseR _ => [baseR]
  | .st sr _ | .sti sr _ => [sr]
  | .str sr baseR _ => [sr, baseR]
  | .getc | .inChar | .halt => []
  | .out | .puts | .putsp => [.r0]
  | .trap vec => if vec = 0x21#8 ∨ vec = 0x22#8 ∨ vec = 0x24#8 then [.r0] else []
  | .rti | .res => []

/-- The general registers an instruction may write. -/
def Instr.regWrites : Instr → List Reg
  | .addReg dr _ _ | .andReg dr _ _ | .addImm dr _ _ | .andImm dr _ _ | .not dr _ => [dr]
  | .br _ _ | .ret | .jmp _ => []
  | .jsr _ | .jsrr _ => [.r7]
  | .ld dr _ | .ldi dr _ | .ldr dr _ _ | .lea dr _ => [dr]
  | .st _ _ | .sti _ _ | .str _ _ _ => []
  | .getc | .inChar => [.r7, .r0]
  | .out | .puts | .putsp | .halt => [.r7]
  | .trap vec =>
    if vec = 0x20#8 ∨ vec = 0x23#8 then [.r7, .r0]
    else if vec = 0x21#8 ∨ vec = 0x22#8 ∨ vec = 0x24#8 ∨ vec = 0x25#8 then [.r7] else []
  | .rti | .res => []

/-- The DR of a destination-writing opcode: exactly ADD, AND, NOT, LD, LDI, LDR, LEA (00_scope.md R14). -/
def Instr.dest? : Instr → Option Reg
  | .addReg dr _ _ | .andReg dr _ _ | .addImm dr _ _ | .andImm dr _ _ | .not dr _ => some dr
  | .ld dr _ | .ldi dr _ | .ldr dr _ _ | .lea dr _ => some dr
  | .br _ _ | .ret | .jmp _ | .jsr _ | .jsrr _ => none
  | .st _ _ | .sti _ _ | .str _ _ _ => none
  | .getc | .out | .puts | .inChar | .putsp | .halt | .trap _ | .rti | .res => none

/-- Whether an instruction waits for a character: GETC and IN (R116). -/
def Instr.waits : Instr → Bool
  | .getc | .inChar => true
  | .trap vec => decide (vec = 0x20#8 ∨ vec = 0x23#8)
  | .addReg _ _ _ | .andReg _ _ _ | .addImm _ _ _ | .andImm _ _ _ | .not _ _ => false
  | .br _ _ | .ret | .jmp _ | .jsr _ | .jsrr _ => false
  | .ld _ _ | .ldi _ _ | .ldr _ _ _ | .lea _ _ | .st _ _ | .sti _ _ | .str _ _ _ => false
  | .out | .puts | .putsp | .halt | .rti | .res => false

end Sys2Proof

namespace Sys2Proof.Machine

/-! ### Flags and frames -/

/-- COND holds exactly one of N, Z, P, as "the signed interpretation" of a value says (10_state.md R25). -/
structure FlagsOf (v : Word) (c : BitVec 3) : Prop where
  negative : c = 0b100#3 ↔ v.toInt < 0
  zero : c = 0b010#3 ↔ v.toInt = 0
  positive : c = 0b001#3 ↔ 0 < v.toInt

/-- Every general register but those listed holds what it held. -/
def RegsKeptBut (rs : List Reg) (s t : State) : Prop := ∀ q, q ∉ rs → t.reg q = s.reg q

/-- Every cell of memory but those listed reads as before. -/
def MemKeptBut (as : List Word) (s t : State) : Prop := ∀ a, a ∉ as → t.peek a = s.peek a

/-- RUN, HALT_CAUSE, PROMPTED, the stop input and the parameters are what they were. -/
structure ControlKept (s t : State) : Prop where
  run : t.run = s.run
  haltCause : t.haltCause = s.haltCause
  prompted : t.prompted = s.prompted
  stopReq : t.stopReq = s.stopReq
  config : t.config = s.config

/-- KBQ and OUT are what they were. -/
structure PortsKept (s t : State) : Prop where
  kbq : t.kbq = s.kbq
  out : t.out = s.out

/-- Everything but PC, the general registers and COND is what it was, every cell of memory among it. -/
structure OnlyRegisterFile (s t : State) : Prop where
  mem : MemKeptBut [] s t
  control : ControlKept s t
  ports : PortsKept s t

/-- A destination-writing opcode has put `v` in `dr`: the flags follow `v`, PC is PC', no other register is written. -/
structure WroteDest (dr : Reg) (v : Word) (s t : State) : Prop where
  dest : t.reg dr = v
  regs : RegsKeptBut [dr] s t
  flags : FlagsOf v t.cond
  pc : t.pc = s.pc + 1#16

/-- PC' + d modulo 2^16, for a signed distance d: what every PC-relative address and target is (42_control.md R151,
43_load.md R170 (a)). Written over the integers, not over the model's operand forms. -/
def State.pcPlus (s : State) (d : Int) : Word := BitVec.ofInt 16 ((s.pc.toNat : Int) + 1 + d)

/-- R[r] + d modulo 2^16, for a signed distance d (43_load.md R170 (b)). -/
def State.basePlus (s : State) (r : Reg) (d : Int) : Word := BitVec.ofInt 16 (((s.reg r).toNat : Int) + d)

/-- A load has put in `dr` the value of the pair `r`: a value read and the state the reads left. -/
structure LoadedFrom (dr : Reg) (r : Word × State) (s t : State) : Prop where
  dest : WroteDest dr r.1 s t
  mem : MemKeptBut [] r.2 t
  kbq : t.kbq = r.2.kbq
  out : t.out = s.out
  control : ControlKept s t

/-- A store has put `v` in the cell `a`; `m` is the state its reads left (the state `s` itself, where it reads nothing).
No register, no flag, no other cell is written. -/
structure StoredAt (a v : Word) (m s t : State) : Prop where
  cell : t.peek a = v
  others : MemKeptBut [a] m t
  kbq : t.kbq = m.kbq
  regs : RegsKeptBut [] s t
  cond : t.cond = s.cond
  pc : t.pc = s.pc + 1#16
  out : t.out = s.out
  control : ControlKept s t

/-- The machine has entered Halted with a cause, and nothing else has changed (60_exceptions.md R256). -/
structure HaltedOnly (c : HaltCause) (s t : State) : Prop where
  run : t.run = .halted
  haltCause : t.haltCause = c
  regs : RegsKeptBut [] s t
  pc : t.pc = s.pc
  cond : t.cond = s.cond
  mem : MemKeptBut [] s t
  ports : PortsKept s t
  prompted : t.prompted = s.prompted
  stopReq : t.stopReq = s.stopReq
  config : t.config = s.config

/-- A trap routine has gone on to PC' with the link in R7; COND and every register but R7 and those listed are kept. -/
structure TrapReturned (rs : List Reg) (s t : State) : Prop where
  link : t.reg .r7 = s.pc + 1#16
  regs : RegsKeptBut (.r7 :: rs) s t
  pc : t.pc = s.pc + 1#16
  cond : t.cond = s.cond

/-- The cells from `a` on hold the words of a string, none of them zero, and then a zero cell, none of them the keyboard
status cell. -/
def HoldsString (s : State) : Word → List Word → Prop
  | a, [] => a ≠ s.config.kbsrAddr ∧ s.peek a = 0x0000#16
  | a, x :: xs => a ≠ s.config.kbsrAddr ∧ s.peek a = x ∧ x ≠ 0x0000#16 ∧ HoldsString s (a + 1#16) xs

/-! ### The string scan as the loop of 45_trap.md R215, R218 -/

/-- `StringScan bytesOf n a s t`: from state `s` the loop at address `a` reads `n` cells that are not zero, writes the
bytes of each, then reads a zero cell and leaves state `t`. -/
inductive StringScan (bytesOf : Word → List Byte) : Nat → Word → State → State → Prop where
  | stop {a : Word} {s : State} : (s.memRead a).1 = 0x0000#16 → StringScan bytesOf 0 a s (s.memRead a).2
  | cell {n : Nat} {a : Word} {s t : State} : (s.memRead a).1 ≠ 0x0000#16 →
      StringScan bytesOf n (a + 1#16) ((s.memRead a).2.emit ((bytesOf (s.memRead a).1).map .write)) t →
      StringScan bytesOf (n + 1) a s t

/-! ### How a step ends (40_instruction_cycle.md R119, R120) -/

/-- The machine will fetch at the next step: it is Running and no stop is requested (60_exceptions.md R257). -/
def State.fetches (s : State) : Prop := s.run = .running ∧ s.stopReq = false

/-- The instruction the next step executes, if it fetches. -/
def State.current (s : State) : Instr := decode s.fetch.1

/-- The outcomes of a step: the five of R119, the no-op of a Halted machine, and the hang, which has no outcome. -/
inductive StepOutcome where
  | completed
  | haltedByTrap
  | stopped
  | fatalError
  | held
  | idle
  | hang
  deriving DecidableEq, Repr

/-- The outcome of the next step (R119). A held step is no progress and not final. -/
def State.outcome (s : State) : StepOutcome :=
  match s.run with
  | .halted => .idle
  | .running =>
    if s.stopReq then .stopped
    else if s.current.waits && s.fetch.2.kbq.isEmpty then .held
    else
      match step s with
      | .fault _ => .hang
      | .refused _ => .hang
      | .next t =>
        match t.run with
        | .running => .completed
        | .halted => if t.haltCause = .haltTrap then .haltedByTrap else .fatalError

/-- The end of a run is the first state with RUN = Halted (R120). -/
def State.ended (s : State) : Prop := s.run = .halted

/-- The run ended normally: by a HALT trap or an external stop (R120). -/
def State.endedNormally (s : State) : Prop := s.ended ∧ (s.haltCause = .haltTrap ∨ s.haltCause = .extStop)

/-- The run ended with a fatal decode error (R120). -/
def State.endedFatally (s : State) : Prop :=
  s.ended ∧ (s.haltCause = .errRti ∨ s.haltCause = .errRes ∨ s.haltCause = .errBadTrap)

/-! ### The invariant and the runs -/

/-- What every step and every move of the HOST keeps (10_state.md R37 (c), (d); R27; 00_scope.md R8; the canonical form
of memory). -/
structure State.Inv (s : State) : Prop where
  /-- The memory is in its canonical form. -/
  memForm : s.mem.wf = true
  /-- KBDR_ADDR differs from KBSR_ADDR. -/
  devices : s.config.wf
  /-- HALT_CAUSE is NONE exactly while Running. -/
  cause : s.haltCause = .none ↔ s.run = .running
  /-- PROMPTED only at an IN trap, which does not lie in the status cell. -/
  waitingIn : s.prompted = true → s.pc ≠ s.config.kbsrAddr ∧ decode (s.peek s.pc) = .inChar

/-- Exactly one flag is set in COND (10_state.md R37 (a)). -/
def OneFlag (c : BitVec 3) : Prop := c = 0b100#3 ∨ c = 0b010#3 ∨ c = 0b001#3

/-- The states of a machine's runs: the reset, then steps of the CORE with any moves of the HOST between them
(40_instruction_cycle.md R121). -/
inductive Reachable (c : Config) (a : ResetArgs) : State → Prop where
  | start : Reachable c a (State.resetWith c a)
  | core {s t : State} : Reachable c a s → step s = .next t → Reachable c a t
  | host {s : State} (m : HostMove) : Reachable c a s → Reachable c a (hostMove m s)

end Sys2Proof.Machine
end

