-- ==== Sys2Proof/Certificates/Slice0/Obligations.lean ====
section
/-! DEFINITION. The statements for the provers. Each says which rule of spec/ it formalises. `exec i s` runs `i` with its
own address A in `s.pc`; `s.pc + 1` is PC'. A first clause over words states the encoding of the rule. -/

open Sys2Proof Sys2Proof.Machine

/-! ### Encoding (30_encoding.md) -/

/-- Sample words of every family, written out from the examples of the rules. Opcode numbers and field positions, here
and in the three statements below, are the spec's own choice (D1, D2; log 6). -/
def Obligations.SampleWordsDecode : Prop :=
  decode 0x1401#16 = .addReg .r2 .r0 .r1 ∧ decode 0x1021#16 = .addImm .r0 .r0 1#5 ∧
  decode 0x5642#16 = .andReg .r3 .r1 .r2 ∧ decode 0x96BF#16 = .not .r3 .r2 ∧
  decode 0x0402#16 = .br 0b010#3 2#9 ∧ decode 0xC080#16 = .jmp .r2 ∧ decode 0xC1C0#16 = .ret ∧
  decode 0x4805#16 = .jsr 5#11 ∧ decode 0x4080#16 = .jsrr .r2 ∧
  decode 0xA803#16 = .ldi .r4 3#9 ∧ decode 0x6440#16 = .ldr .r2 .r1 0#6 ∧
  decode 0xB404#16 = .sti .r2 4#9 ∧ decode 0x7641#16 = .str .r3 .r1 1#6 ∧
  decode 0xF023#16 = .inChar ∧ decode 0xF026#16 = .trap 0x26#8 ∧ decode 0x8000#16 = .rti ∧ decode 0xD000#16 = .res

/-- Decode of encode is the instruction, for every well-formed instruction and every value of every operand. -/
def Obligations.DecodeEncodeRoundTrip : Prop := ∀ i : Instr, i.wf = true → decode (encode i) = i

/-- Every word decodes to a well-formed instruction, whose own word differs from it in ignored bits alone. -/
def Obligations.EncodeDecodeUpToIgnoredBits : Prop :=
  ∀ w : Word, (decode w).wf = true ∧ (encode (decode w) ^^^ w) &&& ~~~ignoredBits (decode w) = 0#16

/-- The first matching row of the opcode table names the decoded instruction, for all 65536 words. -/
def Obligations.OpcodeTableNamesDecode : Prop := ∀ w : Word, tableName w = some (decode w).mnemonic

/-- R87, the spec's own decision D5 (log 10): changing ignored bits changes nothing; `v` is any change that leaves the
bits of the formats' fields alone. -/
def Obligations.IgnoredBitsChangeNothing : Prop :=
  ∀ w v : Word,
    ((w &&& 0xF020#16 = 0x1000#16 ∨ w &&& 0xF020#16 = 0x5000#16) → v &&& 0xFFE7#16 = 0#16 → decode (w ^^^ v) = decode w) ∧
    (w &&& 0xF000#16 = 0x9000#16 → v &&& 0xFFC0#16 = 0#16 → decode (w ^^^ v) = decode w) ∧
    (w &&& 0xF000#16 = 0xC000#16 → v &&& 0xF1C0#16 = 0#16 → decode (w ^^^ v) = decode w) ∧
    (w &&& 0xF800#16 = 0x4000#16 → v &&& 0xF9C0#16 = 0#16 → decode (w ^^^ v) = decode w) ∧
    (w &&& 0xF000#16 = 0xF000#16 → v &&& 0xF0FF#16 = 0#16 → decode (w ^^^ v) = decode w) ∧
    ((w &&& 0xF000#16 = 0x8000#16 ∨ w &&& 0xF000#16 = 0xD000#16) → v &&& 0xF000#16 = 0#16 → decode (w ^^^ v) = decode w)

/-- R88: the illegal words are exactly the three classes, and executing one is the fatal decode error; no other word's
execution is. -/
def Obligations.IllegalWordsAreThreeClasses : Prop :=
  ∀ w : Word,
    (decode w = .rti ↔ 0x8000 ≤ w.toNat ∧ w.toNat ≤ 0x8FFF) ∧
    (decode w = .res ↔ 0xD000 ≤ w.toNat ∧ w.toNat ≤ 0xDFFF) ∧
    (∀ v, decode w = .trap v ↔ 0xF000 ≤ w.toNat ∧ v.toNat = w.toNat % 256 ∧ (v.toNat < 0x20 ∨ 0x25 < v.toNat)) ∧
    ∀ s : State, s.run = .running → s.haltCause = .none →
      ((∃ t, exec (decode w) s = .next t ∧ (t.haltCause = .errRti ∨ t.haltCause = .errRes ∨ t.haltCause = .errBadTrap)) ↔
        (decode w = .rti ∨ decode w = .res ∨ ∃ v, decode w = .trap v))

/-- R11: sign extension of the four widths keeps the low bits, copies the top bit upwards and keeps the signed value;
zero extension of a byte keeps its bits and clears the rest. -/
def Obligations.SignExtensionWidens : Prop :=
  (∀ (n : Nat) (x : BitVec n), n = 5 ∨ n = 6 ∨ n = 9 ∨ n = 11 →
    (∀ k, k < n → (sext x).getLsbD k = x.getLsbD k) ∧
    (∀ k, n ≤ k → k < 16 → (sext x).getLsbD k = x.getLsbD (n - 1)) ∧
    (sext x).toInt = (if x.getLsbD (n - 1) then (x.toNat : Int) - 2 ^ n else (x.toNat : Int))) ∧
  ∀ b : Byte, (∀ k, k < 8 → (zext8 b).getLsbD k = b.getLsbD k) ∧ (∀ k, 8 ≤ k → (zext8 b).getLsbD k = false)

/-! ### Operate (41_operate.md) -/

/-- R133: ADD, register mode. -/
def Obligations.AddRegisterMode : Prop :=
  (∀ w : Word, w &&& 0xF020#16 = 0x1000#16 → decode w = .addReg (regField11 w) (regField8 w) (regField2 w)) ∧
  ∀ (dr sr1 sr2 : Reg) (s : State), ∃ t, exec (.addReg dr sr1 sr2) s = .next t ∧
    WroteDest dr (BitVec.ofNat 16 ((s.reg sr1).toNat + (s.reg sr2).toNat)) s t ∧ OnlyRegisterFile s t

/-- R134: ADD, immediate mode. -/
def Obligations.AddImmediateMode : Prop :=
  (∀ w : Word, w &&& 0xF020#16 = 0x1020#16 → decode w = .addImm (regField11 w) (regField8 w) (imm5Field w)) ∧
  ∀ (dr sr1 : Reg) (imm5 : BitVec 5) (s : State), ∃ t, exec (.addImm dr sr1 imm5) s = .next t ∧
    WroteDest dr (BitVec.ofInt 16 ((s.reg sr1).toInt + imm5.toInt)) s t ∧ OnlyRegisterFile s t

/-- R135: AND, register mode, bit by bit. -/
def Obligations.AndRegisterMode : Prop :=
  (∀ w : Word, w &&& 0xF020#16 = 0x5000#16 → decode w = .andReg (regField11 w) (regField8 w) (regField2 w)) ∧
  ∀ (dr sr1 sr2 : Reg) (s : State), ∃ t v, exec (.andReg dr sr1 sr2) s = .next t ∧
    (∀ k, k < 16 → v.getLsbD k = ((s.reg sr1).getLsbD k && (s.reg sr2).getLsbD k)) ∧
    WroteDest dr v s t ∧ OnlyRegisterFile s t

/-- R136: AND, immediate mode, bit by bit; the immediate's top bit is every higher bit. -/
def Obligations.AndImmediateMode : Prop :=
  (∀ w : Word, w &&& 0xF020#16 = 0x5020#16 → decode w = .andImm (regField11 w) (regField8 w) (imm5Field w)) ∧
  ∀ (dr sr1 : Reg) (imm5 : BitVec 5) (s : State), ∃ t v, exec (.andImm dr sr1 imm5) s = .next t ∧
    (∀ k, k < 16 → v.getLsbD k = ((s.reg sr1).getLsbD k && imm5.getLsbD (min k 4))) ∧
    WroteDest dr v s t ∧ OnlyRegisterFile s t

/-- R137: NOT is 0xFFFF minus the source. -/
def Obligations.NotComplements : Prop :=
  (∀ w : Word, w &&& 0xF000#16 = 0x9000#16 → decode w = .not (regField11 w) (regField8 w)) ∧
  ∀ (dr sr1 : Reg) (s : State), ∃ t, exec (.not dr sr1) s = .next t ∧
    WroteDest dr (BitVec.ofNat 16 (0xFFFF - (s.reg sr1).toNat)) s t ∧ OnlyRegisterFile s t

/-- R138: immediate mode is register mode with the extended immediate in SR2, loaded beforehand or already there. -/
def Obligations.RegisterAndImmediateModesAgree : Prop :=
  ∀ (dr sr1 sr2 : Reg) (k : BitVec 5) (s : State),
    (s.reg sr2 = BitVec.ofInt 16 k.toInt →
      exec (.addReg dr sr1 sr2) s = exec (.addImm dr sr1 k) s ∧ exec (.andReg dr sr1 sr2) s = exec (.andImm dr sr1 k) s) ∧
    (sr2 ≠ sr1 →
      (∃ t u, exec (.addReg dr sr1 sr2) (s.setReg sr2 (BitVec.ofInt 16 k.toInt)) = .next t ∧
        exec (.addImm dr sr1 k) s = .next u ∧ t.reg dr = u.reg dr ∧ t.cond = u.cond) ∧
      ∃ t u, exec (.andReg dr sr1 sr2) (s.setReg sr2 (BitVec.ofInt 16 k.toInt)) = .next t ∧
        exec (.andImm dr sr1 k) s = .next u ∧ t.reg dr = u.reg dr ∧ t.cond = u.cond)

/-- R26: COND is written by the seven destination-writing opcodes, from the value now in DR, and by no other; it is read
by BR alone, so any other instruction does the same from any COND; a step that does not fetch leaves it too. -/
def Obligations.CondWrittenBySevenOpcodes : Prop :=
  (∀ (i : Instr) (s t : State), exec i s = .next t →
    (∀ dr, i.dest? = some dr → FlagsOf (t.reg dr) t.cond) ∧ (i.dest? = none → t.cond = s.cond)) ∧
  (∀ (i : Instr) (s t : State) (c : BitVec 3), (∀ mask off9, i ≠ .br mask off9) → exec i s = .next t →
    ∃ t', exec i (s.setCond c) = .next t' ∧ (∀ dr, i.dest? = some dr → t'.cond = t.cond) ∧ (i.dest? = none → t'.cond = c) ∧
      RegsKeptBut [] t t' ∧ t'.pc = t.pc ∧ MemKeptBut [] t t' ∧ ControlKept t t' ∧ PortsKept t t') ∧
  ∀ s t : State, ¬s.fetches → step s = .next t → t.cond = s.cond

/-! ### Control (42_control.md) -/

/-- R153: BR is taken exactly when a set flag is named in the mask. -/
def Obligations.BranchTakenByMaskAndFlags : Prop :=
  (∀ w : Word, w &&& 0xF000#16 = 0x0000#16 → decode w = .br (maskField w) (off9Field w)) ∧
  ∀ (mask : BitVec 3) (off9 : BitVec 9) (s : State), ∃ t, exec (.br mask off9) s = .next t ∧
    ((∃ k, mask.getLsbD k = true ∧ s.cond.getLsbD k = true) → t.pc = s.pcPlus off9.toInt) ∧
    ((∀ k, mask.getLsbD k = true → s.cond.getLsbD k = false) → t.pc = s.pc + 1#16) ∧
    t.cond = s.cond ∧ RegsKeptBut [] s t ∧ OnlyRegisterFile s t

/-- R154, R155: JMP and RET put the register in PC and change nothing else. -/
def Obligations.JumpThroughRegister : Prop :=
  (∀ w : Word, w &&& 0xF000#16 = 0xC000#16 → regField8 w ≠ .r7 → decode w = .jmp (regField8 w)) ∧
  (∀ w : Word, w &&& 0xF1C0#16 = 0xC1C0#16 → decode w = .ret) ∧
  (∀ (baseR : Reg) (s : State), ∃ t, exec (.jmp baseR) s = .next t ∧
    t.pc = s.reg baseR ∧ t.cond = s.cond ∧ RegsKeptBut [] s t ∧ OnlyRegisterFile s t) ∧
  ∀ s : State, ∃ t, exec .ret s = .next t ∧
    t.pc = s.reg .r7 ∧ t.cond = s.cond ∧ RegsKeptBut [] s t ∧ OnlyRegisterFile s t

/-- R156: JSR. -/
def Obligations.JsrLinksAndJumps : Prop :=
  (∀ w : Word, w &&& 0xF800#16 = 0x4800#16 → decode w = .jsr (off11Field w)) ∧
  ∀ (off11 : BitVec 11) (s : State), ∃ t, exec (.jsr off11) s = .next t ∧
    t.reg .r7 = s.pc + 1#16 ∧ t.pc = s.pcPlus off11.toInt ∧
    t.cond = s.cond ∧ RegsKeptBut [.r7] s t ∧ OnlyRegisterFile s t

/-- R157: JSRR; with base R7 it continues at the next instruction, the spec's own decision D22 (log 10). -/
def Obligations.JsrrLinksThenReadsBase : Prop :=
  (∀ w : Word, w &&& 0xF800#16 = 0x4000#16 → decode w = .jsrr (regField8 w)) ∧
  ∀ (baseR : Reg) (s : State), ∃ t, exec (.jsrr baseR) s = .next t ∧
    t.reg .r7 = s.pc + 1#16 ∧ (baseR ≠ .r7 → t.pc = s.reg baseR) ∧ (baseR = .r7 → t.pc = s.pc + 1#16) ∧
    t.cond = s.cond ∧ RegsKeptBut [.r7] s t ∧ OnlyRegisterFile s t

/-- R158: after JSR (or JSRR with another base than R7), a RET in any state that still holds that R7 returns to the
instruction after the call. -/
def Obligations.CallThenReturn : Prop :=
  (∀ (off11 : BitVec 11) (s : State), ∃ t, exec (.jsr off11) s = .next t ∧
    t.reg .r7 = s.pc + 1#16 ∧ t.pc = s.pcPlus off11.toInt ∧
    ∀ u : State, u.reg .r7 = t.reg .r7 → ∃ v, exec .ret u = .next v ∧ v.pc = s.pc + 1#16) ∧
  ∀ (baseR : Reg) (s : State), baseR ≠ .r7 → ∃ t, exec (.jsrr baseR) s = .next t ∧
    t.reg .r7 = s.pc + 1#16 ∧ t.pc = s.reg baseR ∧
    ∀ u : State, u.reg .r7 = t.reg .r7 → ∃ v, exec .ret u = .next v ∧ v.pc = s.pc + 1#16

/-! ### Loads and stores (43_load.md, 44_store.md) -/

/-- R173: LD. From any cell but the keyboard status cell, no memory cell and no character changes. -/
def Obligations.LoadPcRelative : Prop :=
  (∀ w : Word, w &&& 0xF000#16 = 0x2000#16 → decode w = .ld (regField11 w) (off9Field w)) ∧
  ∀ (dr : Reg) (off9 : BitVec 9) (s : State), ∃ t, exec (.ld dr off9) s = .next t ∧
    LoadedFrom dr (s.memRead (s.pcPlus off9.toInt)) s t ∧
    (s.pcPlus off9.toInt ≠ s.config.kbsrAddr →
      t.reg dr = s.peek (s.pcPlus off9.toInt) ∧ MemKeptBut [] s t ∧ t.kbq = s.kbq)

/-- R174: LDI, two reads, the pointer first. -/
def Obligations.LoadIndirect : Prop :=
  (∀ w : Word, w &&& 0xF000#16 = 0xA000#16 → decode w = .ldi (regField11 w) (off9Field w)) ∧
  ∀ (dr : Reg) (off9 : BitVec 9) (s : State), ∃ t, exec (.ldi dr off9) s = .next t ∧
    LoadedFrom dr ((s.memRead (s.pcPlus off9.toInt)).2.memRead (s.memRead (s.pcPlus off9.toInt)).1) s t ∧
    (s.pcPlus off9.toInt ≠ s.config.kbsrAddr → s.peek (s.pcPlus off9.toInt) ≠ s.config.kbsrAddr →
      t.reg dr = s.peek (s.peek (s.pcPlus off9.toInt)) ∧ MemKeptBut [] s t ∧ t.kbq = s.kbq)

/-- R175: LDR; DR may be BaseR, and the address uses the old base. -/
def Obligations.LoadBaseOffset : Prop :=
  (∀ w : Word, w &&& 0xF000#16 = 0x6000#16 → decode w = .ldr (regField11 w) (regField8 w) (off6Field w)) ∧
  ∀ (dr baseR : Reg) (off6 : BitVec 6) (s : State), ∃ t, exec (.ldr dr baseR off6) s = .next t ∧
    LoadedFrom dr (s.memRead (s.basePlus baseR off6.toInt)) s t ∧
    (s.basePlus baseR off6.toInt ≠ s.config.kbsrAddr →
      t.reg dr = s.peek (s.basePlus baseR off6.toInt) ∧ MemKeptBut [] s t ∧ t.kbq = s.kbq)

/-- R176: LEA writes the address, with its flags, and reads no memory. -/
def Obligations.LoadEffectiveAddress : Prop :=
  (∀ w : Word, w &&& 0xF000#16 = 0xE000#16 → decode w = .lea (regField11 w) (off9Field w)) ∧
  ∀ (dr : Reg) (off9 : BitVec 9) (s : State), ∃ t, exec (.lea dr off9) s = .next t ∧
    WroteDest dr (s.pcPlus off9.toInt) s t ∧ OnlyRegisterFile s t

/-- R191: ST. The address stored to is the model's `pcRelative`, which is PC' + off9 modulo 2^16. -/
def Obligations.StorePcRelative : Prop :=
  (∀ w : Word, w &&& 0xF000#16 = 0x3000#16 → decode w = .st (regField11 w) (off9Field w)) ∧
  ∀ (sr : Reg) (off9 : BitVec 9) (s : State), s.pcRelative off9 = s.pcPlus off9.toInt ∧
    ∃ t, exec (.st sr off9) s = .next t ∧ StoredAt (s.pcRelative off9) (s.reg sr) s s t

/-- R192: STI. The address stored to is what `indirect` reads; the pointer read may poll the keyboard, a plain pointer
cell leaves everything. -/
def Obligations.StoreIndirect : Prop :=
  (∀ w : Word, w &&& 0xF000#16 = 0xB000#16 → decode w = .sti (regField11 w) (off9Field w)) ∧
  ∀ (sr : Reg) (off9 : BitVec 9) (s : State), s.indirect off9 = s.memRead (s.pcPlus off9.toInt) ∧
    ∃ t, exec (.sti sr off9) s = .next t ∧
      StoredAt (s.indirect off9).1 (s.reg sr) (s.indirect off9).2 s t ∧
      (s.pcPlus off9.toInt ≠ s.config.kbsrAddr → StoredAt (s.peek (s.pcPlus off9.toInt)) (s.reg sr) s s t)

/-- R193: STR. The address stored to is the model's `baseOffset`, which is R[BaseR] + off6 modulo 2^16. -/
def Obligations.StoreBaseOffset : Prop :=
  (∀ w : Word, w &&& 0xF000#16 = 0x7000#16 → decode w = .str (regField11 w) (regField8 w) (off6Field w)) ∧
  ∀ (sr baseR : Reg) (off6 : BitVec 6) (s : State), s.baseOffset baseR off6 = s.basePlus baseR off6.toInt ∧
    ∃ t, exec (.str sr baseR off6) s = .next t ∧ StoredAt (s.baseOffset baseR off6) (s.reg sr) s s t

/-- R194, derived by the spec from R50 and R52 (log 10): what a store puts at an address, a load from the same address
in any state with the memory it left reads back, with its flags, except at the keyboard status cell. -/
def Obligations.StoreThenLoadReadsBack : Prop :=
  ∀ (sr dr : Reg) (s u : State), u.config = s.config →
    (∀ o1 o2 : BitVec 9, s.pcPlus o1.toInt = u.pcPlus o2.toInt → s.pcPlus o1.toInt ≠ s.config.kbsrAddr →
      ∃ t, exec (.st sr o1) s = .next t ∧ (MemKeptBut [] t u →
        ∃ v, exec (.ld dr o2) u = .next v ∧ v.reg dr = s.reg sr ∧ FlagsOf (s.reg sr) v.cond)) ∧
    (∀ (b1 b2 : Reg) (o1 o2 : BitVec 6), s.basePlus b1 o1.toInt = u.basePlus b2 o2.toInt →
      s.basePlus b1 o1.toInt ≠ s.config.kbsrAddr →
      ∃ t, exec (.str sr b1 o1) s = .next t ∧ (MemKeptBut [] t u →
        ∃ v, exec (.ldr dr b2 o2) u = .next v ∧ v.reg dr = s.reg sr ∧ FlagsOf (s.reg sr) v.cond)) ∧
    (∀ o1 o2 : BitVec 9, u.pcPlus o2.toInt ≠ u.config.kbsrAddr →
      (s.memRead (s.pcPlus o1.toInt)).1 = u.peek (u.pcPlus o2.toInt) → u.peek (u.pcPlus o2.toInt) ≠ s.config.kbsrAddr →
      ∃ t, exec (.sti sr o1) s = .next t ∧ (MemKeptBut [] t u →
        ∃ v, exec (.ldi dr o2) u = .next v ∧ v.reg dr = s.reg sr ∧ FlagsOf (s.reg sr) v.cond))

/-! ### Memory and the keyboard device (20_memory.md) -/

/-- R52: MemRead. Any other address is the cell; the status address polls first. The last clause needs the two device
addresses to differ, as the parameters must (00_scope.md R8). -/
def Obligations.MemReadPollsKeyboard : Prop :=
  ∀ s : State,
    (∀ a, a ≠ s.config.kbsrAddr → s.memRead a = (s.peek a, s)) ∧
    (s.kbq = [] → ∃ m, s.memRead s.config.kbsrAddr = (0x0000#16, m) ∧ m.peek s.config.kbsrAddr = 0x0000#16 ∧
      MemKeptBut [s.config.kbsrAddr] s m ∧ m.regs = s.regs ∧ m.pc = s.pc ∧ m.cond = s.cond ∧ ControlKept s m ∧ PortsKept s m) ∧
    (∀ c q, s.kbq = c :: q → s.config.wf → ∃ m, s.memRead s.config.kbsrAddr = (0x8000#16, m) ∧
      m.peek s.config.kbsrAddr = 0x8000#16 ∧ (m.peek s.config.kbdrAddr).toNat = c.toNat ∧ m.kbq = q ∧
      MemKeptBut [s.config.kbsrAddr, s.config.kbdrAddr] s m ∧
      m.regs = s.regs ∧ m.pc = s.pc ∧ m.cond = s.cond ∧ m.out = s.out ∧ ControlKept s m)

/-- R55, derived by the spec from R52 and R54 (log 10): a read of KBDR is plain; two polls take two characters; a second
poll with nothing pending clears the status and keeps the data; a character a poll took is not seen by GETC. -/
def Obligations.KeyboardDataIsPlainCell : Prop :=
  ∀ s : State, s.config.wf →
    s.memRead s.config.kbdrAddr = (s.peek s.config.kbdrAddr, s) ∧
    (∀ c1 c2 q, s.kbq = c1 :: c2 :: q →
      ∃ m1 m2, s.memRead s.config.kbsrAddr = (0x8000#16, m1) ∧ m1.memRead s.config.kbsrAddr = (0x8000#16, m2) ∧
        m2.kbq = q ∧ (m2.peek s.config.kbdrAddr).toNat = c2.toNat) ∧
    (∀ c, s.kbq = [c] →
      ∃ m1 m2, s.memRead s.config.kbsrAddr = (0x8000#16, m1) ∧ m1.memRead s.config.kbsrAddr = (0x0000#16, m2) ∧
        (m2.peek s.config.kbdrAddr).toNat = c.toNat ∧ exec .getc m1 = .next m1)

/-- R53, the spec's own decision D12 (log 10): MemWrite writes one cell of the 65536, whichever it is, and nothing else;
a value stored in the status cell is overwritten by the next poll, one in the data cell stays until a poll that finds a
character. -/
def Obligations.MemWriteIsPlain : Prop :=
  ∀ (s : State) (a v : Word),
    ((s.memWrite a v).peek a = v ∧ MemKeptBut [a] s (s.memWrite a v) ∧
      (s.memWrite a v).regs = s.regs ∧ (s.memWrite a v).pc = s.pc ∧ (s.memWrite a v).cond = s.cond ∧
      ControlKept s (s.memWrite a v) ∧ PortsKept s (s.memWrite a v)) ∧
    (s.config.wf → ((s.memWrite s.config.kbsrAddr v).memRead s.config.kbsrAddr).1 = (if s.kbq = [] then 0x0000#16 else 0x8000#16)) ∧
    (s.config.wf → s.kbq = [] →
      ((s.memWrite s.config.kbdrAddr v).memRead s.config.kbsrAddr).2.peek s.config.kbdrAddr = v)

/-- R56, the spec's own decision D13 (log 10): a fetch from the status cell executes the polled value and never the
stored one: RTI with a key, else a BR that does nothing. -/
def Obligations.FetchFromStatusCellPolls : Prop :=
  ∀ s : State, s.fetches → s.config.wf → s.pc = s.config.kbsrAddr →
    (s.kbq = [] → ∃ t, step s = .next t ∧ t.pc = s.pc + 1#16 ∧ t.cond = s.cond ∧ RegsKeptBut [] s t ∧
      t.peek s.pc = 0x0000#16 ∧ MemKeptBut [s.pc] s t ∧ ControlKept s t ∧ PortsKept s t) ∧
    (∀ c q, s.kbq = c :: q → ∃ t, step s = .next t ∧ t.run = .halted ∧ t.haltCause = .errRti ∧ t.pc = s.pc ∧
      t.cond = s.cond ∧ RegsKeptBut [] s t ∧ t.peek s.pc = 0x8000#16 ∧ (t.peek s.config.kbdrAddr).toNat = c.toNat ∧
      MemKeptBut [s.pc, s.config.kbdrAddr] s t ∧ t.kbq = q ∧ t.out = s.out ∧
      t.prompted = s.prompted ∧ t.stopReq = s.stopReq ∧ t.config = s.config)

/-- R66, derived by the spec from R59 and R63 (log 10): a store to the address the next instruction is fetched from is
what that fetch reads. -/
def Obligations.StoreSeenByNextFetch : Prop :=
  ∀ (i : Instr) (a v : Word) (s t : State),
    ((∃ sr off9, i = .st sr off9 ∧ a = s.pcRelative off9 ∧ v = s.reg sr) ∨
     (∃ sr off9, i = .sti sr off9 ∧ a = (s.indirect off9).1 ∧ v = s.reg sr) ∨
     (∃ sr baseR off6, i = .str sr baseR off6 ∧ a = s.baseOffset baseR off6 ∧ v = s.reg sr)) →
    exec i s = .next t → t.fetches → t.pc = a → a ≠ t.config.kbsrAddr →
    t.fetch = (v, t) ∧ step t = exec (decode v) t

/-- R281, R68, information about what the loader outside the core does (log 13): an image that ends below 0xFFFF is laid
down word by word from its origin and changes no other cell. -/
def Obligations.ImageIsLaidDownAtOrigin : Prop :=
  ∀ (lastCell : Bool) (i : Image) (m : Memory), i.origin.toNat + i.words.length ≤ 0xFFFF →
    (∀ (k : Nat) (w : Word), i.words[k]? = some w → (m.loadImages lastCell [i]).read (i.origin.toNat + k) = w) ∧
    ∀ a : Nat, (a < i.origin.toNat ∨ i.origin.toNat + i.words.length ≤ a) → (m.loadImages lastCell [i]).read a = m.read a

/-! ### TRAP (45_trap.md) -/

/-- R213: GETC takes the head of KBQ, or holds and changes nothing; that a wait is a held step is the spec's own
decision D14 (log 10). -/
def Obligations.GetcTakesOrHolds : Prop :=
  (∀ w : Word, w &&& 0xF0FF#16 = 0xF020#16 → decode w = .getc) ∧
  ∀ s : State,
    (s.kbq = [] → exec .getc s = .next s) ∧
    (∀ c q, s.kbq = c :: q → ∃ t, exec .getc s = .next t ∧ (t.reg .r0).toNat = c.toNat ∧ TrapReturned [.r0] s t ∧
      t.kbq = q ∧ t.out = s.out ∧ MemKeptBut [] s t ∧ ControlKept s t)

/-- R214: OUT writes the low byte of R0. -/
def Obligations.OutWritesLowByte : Prop :=
  (∀ w : Word, w &&& 0xF0FF#16 = 0xF021#16 → decode w = .out) ∧
  ∀ s : State, ∃ t, exec .out s = .next t ∧ t.out = s.out ++ [.write (BitVec.ofNat 8 (s.reg .r0).toNat)] ∧
    TrapReturned [] s t ∧ t.kbq = s.kbq ∧ MemKeptBut [] s t ∧ ControlKept s t

/-- R215, with the spec's own decision D17 (log 10): PUTS runs the loop of the rule, whatever cells it passes, the
keyboard status cell among them. -/
def Obligations.PutsRunsTheLoop : Prop :=
  (∀ w : Word, w &&& 0xF0FF#16 = 0xF022#16 → decode w = .puts) ∧
  ∀ (s m : State) (n : Nat), n < 65536 →
    StringScan (fun x => [BitVec.ofNat 8 x.toNat]) n (s.reg .r0) (s.setReg .r7 (s.pc + 1#16)) m →
    ∃ t, exec .puts s = .next t ∧ t.out = m.out ∧ t.kbq = m.kbq ∧ MemKeptBut [] m t ∧ TrapReturned [] s t ∧ ControlKept s t

/-- R218, with the spec's own decision D17 (log 10): PUTSP runs its loop: the low byte of each cell, then the high byte
if it is not zero. -/
def Obligations.PutspRunsTheLoop : Prop :=
  (∀ w : Word, w &&& 0xF0FF#16 = 0xF024#16 → decode w = .putsp) ∧
  ∀ (s m : State) (n : Nat), n < 65536 →
    StringScan (fun x => if x.toNat / 256 = 0 then [BitVec.ofNat 8 x.toNat]
      else [BitVec.ofNat 8 x.toNat, BitVec.ofNat 8 (x.toNat / 256)]) n (s.reg .r0) (s.setReg .r7 (s.pc + 1#16)) m →
    ∃ t, exec .putsp s = .next t ∧ t.out = m.out ∧ t.kbq = m.kbq ∧ MemKeptBut [] m t ∧ TrapReturned [] s t ∧ ControlKept s t

/-- R215, R218 on a string, with the spec's own decision D17 (log 10): exactly its characters come out, in order, and
nothing else changes. -/
def Obligations.StringsAreWrittenInOrder : Prop :=
  ∀ (s : State) (ws : List Word), ws.length < 65536 → HoldsString s (s.reg .r0) ws →
    (∃ t, exec .puts s = .next t ∧ t.out = s.out ++ ws.map (fun x => .write (BitVec.ofNat 8 x.toNat)) ∧
      TrapReturned [] s t ∧ t.kbq = s.kbq ∧ MemKeptBut [] s t ∧ ControlKept s t) ∧
    ∃ t, exec .putsp s = .next t ∧
      t.out = s.out ++ ws.flatMap (fun x => .write (BitVec.ofNat 8 x.toNat) ::
        (if x.toNat / 256 = 0 then [] else [.write (BitVec.ofNat 8 (x.toNat / 256))])) ∧
      TrapReturned [] s t ∧ t.kbq = s.kbq ∧ MemKeptBut [] s t ∧ ControlKept s t

/-- R216: PUTS and PUTSP have no next state exactly when no zero cell is found in 65536 reads. That this is the named
reason `stuckStringScan` is the model's choice (log 2). -/
def Obligations.ScanWithoutZeroHangs : Prop :=
  ∀ s : State,
    (exec .puts s = .fault .stuckStringScan ↔
      ¬∃ (n : Nat) (m : State), n < 65536 ∧ StringScan putsBytes n (s.reg .r0) (s.setReg .r7 (s.pc + 1#16)) m) ∧
    (exec .putsp s = .fault .stuckStringScan ↔
      ¬∃ (n : Nat) (m : State), n < 65536 ∧ StringScan putspBytes n (s.reg .r0) (s.setReg .r7 (s.pc + 1#16)) m)

/-- R217, with the spec's own decisions D14, D15, D16 (log 10): IN writes its prompt unless it has, then holds with
PROMPTED set, or echoes and takes the character. -/
def Obligations.InPromptsOnceThenEchoes : Prop :=
  (∀ w : Word, w &&& 0xF0FF#16 = 0xF023#16 → decode w = .inChar) ∧
  ∀ s : State,
    (s.kbq = [] → ∃ t, exec .inChar s = .next t ∧
      t.out = s.out ++ (if s.prompted then [] else s.config.inPrompt.map .write) ∧ t.prompted = true ∧
      t.pc = s.pc ∧ t.cond = s.cond ∧ RegsKeptBut [] s t ∧ MemKeptBut [] s t ∧ t.kbq = [] ∧
      t.run = s.run ∧ t.haltCause = s.haltCause ∧ t.stopReq = s.stopReq ∧ t.config = s.config) ∧
    (∀ c q, s.kbq = c :: q → ∃ t, exec .inChar s = .next t ∧
      t.out = s.out ++ (if s.prompted then [] else s.config.inPrompt.map .write) ++ [.echo c] ∧ t.prompted = false ∧
      (t.reg .r0).toNat = c.toNat ∧ TrapReturned [.r0] s t ∧ MemKeptBut [] s t ∧ t.kbq = q ∧
      t.run = s.run ∧ t.haltCause = s.haltCause ∧ t.stopReq = s.stopReq ∧ t.config = s.config)

/-- R219: HALT is completed like any TRAP, then the machine is Halted; it writes nothing to the console, the spec's own
decision D18 (log 10). -/
def Obligations.HaltTrapHalts : Prop :=
  (∀ w : Word, w &&& 0xF0FF#16 = 0xF025#16 → decode w = .halt) ∧
  ∀ s : State, ∃ t, exec .halt s = .next t ∧ t.run = .halted ∧ t.haltCause = .haltTrap ∧ TrapReturned [] s t ∧
    MemKeptBut [] s t ∧ PortsKept s t ∧ t.prompted = s.prompted ∧ t.stopReq = s.stopReq ∧ t.config = s.config

/-- R220: a TRAP with any other vector is the fatal decode error; R7 is not written and PC stays, the spec's own
decisions D6, D9 (log 10). -/
def Obligations.UnknownVectorIsFatal : Prop :=
  (∀ w : Word, w &&& 0xF000#16 = 0xF000#16 → (w.toNat % 256 < 0x20 ∨ 0x25 < w.toNat % 256) →
    decode w = .trap (vectorField w)) ∧
  ∀ (vec : BitVec 8) (s : State), (vec.toNat < 0x20 ∨ 0x25 < vec.toNat) →
    ∃ t, exec (.trap vec) s = .next t ∧ HaltedOnly .errBadTrap s t

/-- R210, R211, with the spec's own decision D8 (log 10): whatever its word, a TRAP that answers a next state leaves
COND, writes no register but R7 and R0, and either has gone on to PC' with the link in R7, or (hold, fatal error) has
left PC and every register. The generic row on a recognised vector is that routine (log 12). -/
def Obligations.TrapGoesOnOrLeavesRegisters : Prop :=
  (∀ (w : Word) (s t : State), w &&& 0xF000#16 = 0xF000#16 → exec (decode w) s = .next t →
    (TrapReturned [.r0] s t ∨ (t.pc = s.pc ∧ t.cond = s.cond ∧ RegsKeptBut [] s t))) ∧
  ∀ s : State, exec (.trap 0x20#8) s = exec .getc s ∧ exec (.trap 0x21#8) s = exec .out s ∧
    exec (.trap 0x22#8) s = exec .puts s ∧ exec (.trap 0x23#8) s = exec .inChar s ∧
    exec (.trap 0x24#8) s = exec .putsp s ∧ exec (.trap 0x25#8) s = exec .halt s

/-! ### Errors, the stop, the step (46_rti_res.md, 60_exceptions.md, 40_instruction_cycle.md) -/

/-- R240, R241: RTI and RES are the fatal decode error, each with its cause; that PC stays and that there are causes are
the spec's own decisions D6, D19 (log 10). -/
def Obligations.RtiAndResAreFatal : Prop :=
  (∀ w : Word, w &&& 0xF000#16 = 0x8000#16 → decode w = .rti) ∧
  (∀ w : Word, w &&& 0xF000#16 = 0xD000#16 → decode w = .res) ∧
  ∀ s : State, (∃ t, exec .rti s = .next t ∧ HaltedOnly .errRti s t) ∧ ∃ t, exec .res s = .next t ∧ HaltedOnly .errRes s t

/-- R117, the spec's own decision D6 (log 10): a step that ends in the fatal error has changed RUN and HALT_CAUSE alone,
but for what the fetch itself did to the device; PC is the offending word's address and the cell there is that word. -/
def Obligations.FatalErrorLeavesOffendingWord : Prop :=
  ∀ s : State, s.fetches →
    (s.current = .rti ∨ s.current = .res ∨ ∃ vec, s.current = .trap vec) →
    ∃ t, step s = .next t ∧ t.run = .halted ∧ (s.current = .rti → t.haltCause = .errRti) ∧
      (s.current = .res → t.haltCause = .errRes) ∧ (∀ vec, s.current = .trap vec → t.haltCause = .errBadTrap) ∧
      t.pc = s.pc ∧ t.cond = s.cond ∧ RegsKeptBut [] s t ∧ t.out = s.out ∧ t.prompted = s.prompted ∧
      t.stopReq = s.stopReq ∧ t.config = s.config ∧
      t.peek s.pc = s.fetch.1 ∧ decode (t.peek s.pc) = s.current ∧
      (s.pc ≠ s.config.kbsrAddr → MemKeptBut [] s t ∧ t.kbq = s.kbq)

/-- R110: a step of a machine that is Running and not asked to stop is the execution of the instruction its fetch reads,
in the state the fetch left; where PC is not the status cell, that is the word in the cell, in the same state. -/
def Obligations.StepRunsDecodedInstruction : Prop :=
  ∀ s : State, s.fetches →
    step s = exec (decode (s.memRead s.pc).1) (s.memRead s.pc).2 ∧
    (∀ i : Instr, s.pc ≠ s.config.kbsrAddr → decode (s.peek s.pc) = i → step s = exec i s)

/-- R111, the spec's own decision D7 (log 10): when Halted a step changes nothing, so nothing ever changes again. -/
def Obligations.HaltedStepsChangeNothing : Prop :=
  ∀ (s : State) (k : Nat), s.run = .halted → step s = .next s ∧ Host.Core.run Sys2Proof.core k s = .next s

/-- R112, R257, the spec's own decision D21 (log 10): a stop request wins over whatever the instruction would have done;
it changes RUN and HALT_CAUSE alone. -/
def Obligations.StopRequestWins : Prop :=
  ∀ s : State, s.run = .running → s.stopReq = true → ∃ t, step s = .next t ∧ HaltedOnly .extStop s t

/-- R116, the spec's own decision D14 (log 10): a GETC or IN with no character holds: PC, registers, flags, memory stay,
the machine stays Running, and the same instruction is next; a byte from the HOST lets it complete, a stop request ends
it. -/
def Obligations.HoldIsLiftedByCharacterOrStop : Prop :=
  ∀ (s : State) (b : Byte), s.fetches → s.current.waits = true → s.fetch.2.kbq = [] →
    ∃ t, step s = .next t ∧ t.pc = s.pc ∧ t.cond = s.cond ∧ RegsKeptBut [] s t ∧ MemKeptBut [] s t ∧
      t.run = .running ∧ t.haltCause = s.haltCause ∧ t.kbq = [] ∧ t.current = s.current ∧
      (s.current = .getc → t = s) ∧
      (s.current = .inChar → t.prompted = true ∧
        t.out = s.out ++ (if s.prompted then [] else s.config.inPrompt.map .write)) ∧
      (∃ u, step (hostMove (.appendKey b) t) = .next u ∧ (u.reg .r0).toNat = b.toNat ∧ TrapReturned [.r0] s u ∧ u.kbq = []) ∧
      ∃ u, step (hostMove (.driveStop true) t) = .next u ∧ u.run = .halted ∧ u.haltCause = .extStop ∧ u.pc = s.pc

/-- R119, derived by the spec, with the model's choice of log 2: a step never refuses, and its only way to have no next
state is a string scan that finds no zero cell. -/
def Obligations.StepStopsOnlyOnEndlessScan : Prop :=
  ∀ s : State, (∃ t, step s = .next t) ∨
    (step s = .fault .stuckStringScan ∧ s.fetches ∧
      ((s.current = .puts ∧ ¬∃ (n : Nat) (m : State), n < 65536 ∧
          StringScan putsBytes n (s.reg .r0) (s.fetch.2.setReg .r7 (s.pc + 1#16)) m) ∨
       (s.current = .putsp ∧ ¬∃ (n : Nat) (m : State), n < 65536 ∧
          StringScan putspBytes n (s.reg .r0) (s.fetch.2.setReg .r7 (s.pc + 1#16)) m)))

/-! ### Whole-machine rules (10_state.md, 70_reset_and_hazards.md) -/

/-- R36: the state when the first step begins, for every choice of the arguments. COND, HALT_CAUSE, PROMPTED and OUT at
reset are the spec's own decisions D4, D19, D15, D16 (log 9, log 10). -/
def Obligations.ResetStateValues : Prop :=
  (∀ (c : Config) (a : ResetArgs) (r : Reg), (State.resetWith c a).reg r = 0x0000#16) ∧
  (∀ (c : Config) (a : ResetArgs), (State.resetWith c a).pc = a.startPc ∧ (State.resetWith c a).cond = a.resetCond ∧
    (∀ x : Word, (State.resetWith c a).peek x = a.memInit.read x.toNat) ∧ (State.resetWith c a).run = .running ∧
    (State.resetWith c a).haltCause = .none ∧ (State.resetWith c a).prompted = false ∧
    (State.resetWith c a).kbq = a.kbq ∧ (State.resetWith c a).out = []) ∧
  State.reset.pc = 0x3000#16 ∧ State.reset.cond = 0b000#3 ∧ ∀ x : Word, State.reset.peek x = 0x0000#16

/-- R21, derived by the spec from the instruction rules (log 10): which general registers each instruction writes, and
which it reads: a register it does not read can hold anything, with the same outcome everywhere but in that register. -/
def Obligations.RegistersReadAndWritten : Prop :=
  ∀ (i : Instr) (s t : State), exec i s = .next t →
    RegsKeptBut i.regWrites s t ∧
    ∀ (r : Reg) (v : Word), r ∉ i.regReads → ∃ t', exec i (s.setReg r v) = .next t' ∧ RegsKeptBut [r] t t' ∧
      (t'.reg r = t.reg r ∨ t'.reg r = v) ∧ t'.pc = t.pc ∧ t'.cond = t.cond ∧ MemKeptBut [] t t' ∧
      t'.run = t.run ∧ t'.haltCause = t.haltCause ∧ t'.prompted = t.prompted ∧ t'.kbq = t.kbq ∧ t'.out = t.out

/-- R32, with the spec's own decision D16 (log 10): OUT only grows at its end, KBQ only loses bytes at its head, and the
stop input and the parameters are not the CORE's to change (00_scope.md R7, R8). -/
def Obligations.OutGrowsAndKbqDrains : Prop :=
  ∀ s t : State, step s = .next t →
    (∃ es, t.out = s.out ++ es) ∧ (∃ taken, s.kbq = taken ++ t.kbq) ∧ t.stopReq = s.stopReq ∧ t.config = s.config

/-- R37 (a), derived by the spec (log 10): once exactly one flag is set, it is so for ever; a completed
destination-writing opcode makes it so. -/
def Obligations.ExactlyOneFlagForEver : Prop :=
  (∀ s t : State, OneFlag s.cond → step s = .next t → OneFlag t.cond) ∧
  (∀ (i : Instr) (dr : Reg) (s : State), i.dest? = some dr → ∃ t, exec i s = .next t ∧ OneFlag t.cond) ∧
  ∀ (m : HostMove) (s : State), OneFlag s.cond → OneFlag (hostMove m s).cond

/-- The invariant at reset, for every admissible choice of the arguments. Its canonical form of memory is the model's
(log 1), its other clauses the spec's own (R37; log 10). -/
def Obligations.ResetMeetsInvariant : Prop :=
  (∀ (c : Config) (a : ResetArgs), c.wf → a.memInit.wf = true → (State.resetWith c a).Inv) ∧ State.reset.Inv

/-- Every step keeps the invariant, from every state that meets it: the memory's canonical form, HALT_CAUSE against RUN
(R37 (c)), PROMPTED only at an IN trap (R37 (d)). -/
def Obligations.StepKeepsInvariant : Prop := ∀ s t : State, s.Inv → step s = .next t → t.Inv

/-- Every state of every run, with any moves of the HOST between the steps, meets the invariant and has the machine's
parameters; a Halted one has ended normally or fatally and stays Halted, whatever the HOST does (R37 (e), R121; derived by
the spec, log 10; canonical memory is the model's, log 1). -/
def Obligations.ReachableStatesMeetInvariant : Prop :=
  ∀ (c : Config) (a : ResetArgs) (s : State), c.wf → a.memInit.wf = true → Reachable c a s →
    s.Inv ∧ s.config = c ∧ (OneFlag a.resetCond → OneFlag s.cond) ∧
    (s.run = .halted → (s.endedNormally ∨ s.endedFatally) ∧ step s = .next s ∧
      ∀ m : HostMove, (hostMove m s).run = .halted ∧ step (hostMove m s) = .next (hostMove m s))
end

