-- ==== Sys2Proof/Laws/State.lean ====
section
/-! SUPPORT. One lemma per field per update of State, and what each update does to a register and a cell read; each
true by rfl, so that no proof unfolds a record update. -/

namespace Sys2Proof.Machine

@[simp] theorem setReg_regs (s : State) (r : Reg) (v : Word) : (s.setReg r v).regs = s.regs.set r v := rfl
@[simp] theorem setReg_pc (s : State) (r : Reg) (v : Word) : (s.setReg r v).pc = s.pc := rfl
@[simp] theorem setReg_cond (s : State) (r : Reg) (v : Word) : (s.setReg r v).cond = s.cond := rfl
@[simp] theorem setReg_mem (s : State) (r : Reg) (v : Word) : (s.setReg r v).mem = s.mem := rfl
@[simp] theorem setReg_run (s : State) (r : Reg) (v : Word) : (s.setReg r v).run = s.run := rfl
@[simp] theorem setReg_haltCause (s : State) (r : Reg) (v : Word) : (s.setReg r v).haltCause = s.haltCause := rfl
@[simp] theorem setReg_prompted (s : State) (r : Reg) (v : Word) : (s.setReg r v).prompted = s.prompted := rfl
@[simp] theorem setReg_kbq (s : State) (r : Reg) (v : Word) : (s.setReg r v).kbq = s.kbq := rfl
@[simp] theorem setReg_out (s : State) (r : Reg) (v : Word) : (s.setReg r v).out = s.out := rfl
@[simp] theorem setReg_stopReq (s : State) (r : Reg) (v : Word) : (s.setReg r v).stopReq = s.stopReq := rfl
@[simp] theorem setReg_config (s : State) (r : Reg) (v : Word) : (s.setReg r v).config = s.config := rfl
@[simp] theorem setReg_peek (s : State) (r : Reg) (v : Word) (x : Word) : (s.setReg r v).peek x = s.peek x := rfl
@[simp] theorem setReg_nextPc (s : State) (r : Reg) (v : Word) : (s.setReg r v).nextPc = s.nextPc := rfl

@[simp] theorem setCond_regs (s : State) (c : BitVec 3) : (s.setCond c).regs = s.regs := rfl
@[simp] theorem setCond_pc (s : State) (c : BitVec 3) : (s.setCond c).pc = s.pc := rfl
@[simp] theorem setCond_cond (s : State) (c : BitVec 3) : (s.setCond c).cond = c := rfl
@[simp] theorem setCond_mem (s : State) (c : BitVec 3) : (s.setCond c).mem = s.mem := rfl
@[simp] theorem setCond_run (s : State) (c : BitVec 3) : (s.setCond c).run = s.run := rfl
@[simp] theorem setCond_haltCause (s : State) (c : BitVec 3) : (s.setCond c).haltCause = s.haltCause := rfl
@[simp] theorem setCond_prompted (s : State) (c : BitVec 3) : (s.setCond c).prompted = s.prompted := rfl
@[simp] theorem setCond_kbq (s : State) (c : BitVec 3) : (s.setCond c).kbq = s.kbq := rfl
@[simp] theorem setCond_out (s : State) (c : BitVec 3) : (s.setCond c).out = s.out := rfl
@[simp] theorem setCond_stopReq (s : State) (c : BitVec 3) : (s.setCond c).stopReq = s.stopReq := rfl
@[simp] theorem setCond_config (s : State) (c : BitVec 3) : (s.setCond c).config = s.config := rfl
@[simp] theorem setCond_reg (s : State) (c : BitVec 3) (q : Reg) : (s.setCond c).reg q = s.reg q := rfl
@[simp] theorem setCond_peek (s : State) (c : BitVec 3) (x : Word) : (s.setCond c).peek x = s.peek x := rfl
@[simp] theorem setCond_nextPc (s : State) (c : BitVec 3) : (s.setCond c).nextPc = s.nextPc := rfl

@[simp] theorem setPc_regs (s : State) (a : Word) : (s.setPc a).regs = s.regs := rfl
@[simp] theorem setPc_pc (s : State) (a : Word) : (s.setPc a).pc = a := rfl
@[simp] theorem setPc_cond (s : State) (a : Word) : (s.setPc a).cond = s.cond := rfl
@[simp] theorem setPc_mem (s : State) (a : Word) : (s.setPc a).mem = s.mem := rfl
@[simp] theorem setPc_run (s : State) (a : Word) : (s.setPc a).run = s.run := rfl
@[simp] theorem setPc_haltCause (s : State) (a : Word) : (s.setPc a).haltCause = s.haltCause := rfl
@[simp] theorem setPc_prompted (s : State) (a : Word) : (s.setPc a).prompted = s.prompted := rfl
@[simp] theorem setPc_kbq (s : State) (a : Word) : (s.setPc a).kbq = s.kbq := rfl
@[simp] theorem setPc_out (s : State) (a : Word) : (s.setPc a).out = s.out := rfl
@[simp] theorem setPc_stopReq (s : State) (a : Word) : (s.setPc a).stopReq = s.stopReq := rfl
@[simp] theorem setPc_config (s : State) (a : Word) : (s.setPc a).config = s.config := rfl
@[simp] theorem setPc_reg (s : State) (a : Word) (q : Reg) : (s.setPc a).reg q = s.reg q := rfl
@[simp] theorem setPc_peek (s : State) (a : Word) (x : Word) : (s.setPc a).peek x = s.peek x := rfl

@[simp] theorem memWrite_regs (s : State) (a v : Word) : (s.memWrite a v).regs = s.regs := rfl
@[simp] theorem memWrite_pc (s : State) (a v : Word) : (s.memWrite a v).pc = s.pc := rfl
@[simp] theorem memWrite_cond (s : State) (a v : Word) : (s.memWrite a v).cond = s.cond := rfl
@[simp] theorem memWrite_mem (s : State) (a v : Word) : (s.memWrite a v).mem = s.mem.write a.toNat v := rfl
@[simp] theorem memWrite_run (s : State) (a v : Word) : (s.memWrite a v).run = s.run := rfl
@[simp] theorem memWrite_haltCause (s : State) (a v : Word) : (s.memWrite a v).haltCause = s.haltCause := rfl
@[simp] theorem memWrite_prompted (s : State) (a v : Word) : (s.memWrite a v).prompted = s.prompted := rfl
@[simp] theorem memWrite_kbq (s : State) (a v : Word) : (s.memWrite a v).kbq = s.kbq := rfl
@[simp] theorem memWrite_out (s : State) (a v : Word) : (s.memWrite a v).out = s.out := rfl
@[simp] theorem memWrite_stopReq (s : State) (a v : Word) : (s.memWrite a v).stopReq = s.stopReq := rfl
@[simp] theorem memWrite_config (s : State) (a v : Word) : (s.memWrite a v).config = s.config := rfl
@[simp] theorem memWrite_reg (s : State) (a v : Word) (q : Reg) : (s.memWrite a v).reg q = s.reg q := rfl
@[simp] theorem memWrite_nextPc (s : State) (a v : Word) : (s.memWrite a v).nextPc = s.nextPc := rfl

@[simp] theorem setKbq_regs (s : State) (q : List Byte) : (s.setKbq q).regs = s.regs := rfl
@[simp] theorem setKbq_pc (s : State) (q : List Byte) : (s.setKbq q).pc = s.pc := rfl
@[simp] theorem setKbq_cond (s : State) (q : List Byte) : (s.setKbq q).cond = s.cond := rfl
@[simp] theorem setKbq_mem (s : State) (q : List Byte) : (s.setKbq q).mem = s.mem := rfl
@[simp] theorem setKbq_run (s : State) (q : List Byte) : (s.setKbq q).run = s.run := rfl
@[simp] theorem setKbq_haltCause (s : State) (q : List Byte) : (s.setKbq q).haltCause = s.haltCause := rfl
@[simp] theorem setKbq_prompted (s : State) (q : List Byte) : (s.setKbq q).prompted = s.prompted := rfl
@[simp] theorem setKbq_kbq (s : State) (q : List Byte) : (s.setKbq q).kbq = q := rfl
@[simp] theorem setKbq_out (s : State) (q : List Byte) : (s.setKbq q).out = s.out := rfl
@[simp] theorem setKbq_stopReq (s : State) (q : List Byte) : (s.setKbq q).stopReq = s.stopReq := rfl
@[simp] theorem setKbq_config (s : State) (q : List Byte) : (s.setKbq q).config = s.config := rfl
@[simp] theorem setKbq_reg (s : State) (k : List Byte) (q : Reg) : (s.setKbq k).reg q = s.reg q := rfl
@[simp] theorem setKbq_peek (s : State) (q : List Byte) (x : Word) : (s.setKbq q).peek x = s.peek x := rfl
@[simp] theorem setKbq_nextPc (s : State) (q : List Byte) : (s.setKbq q).nextPc = s.nextPc := rfl

@[simp] theorem emit_regs (s : State) (es : List OutEvent) : (s.emit es).regs = s.regs := rfl
@[simp] theorem emit_pc (s : State) (es : List OutEvent) : (s.emit es).pc = s.pc := rfl
@[simp] theorem emit_cond (s : State) (es : List OutEvent) : (s.emit es).cond = s.cond := rfl
@[simp] theorem emit_mem (s : State) (es : List OutEvent) : (s.emit es).mem = s.mem := rfl
@[simp] theorem emit_run (s : State) (es : List OutEvent) : (s.emit es).run = s.run := rfl
@[simp] theorem emit_haltCause (s : State) (es : List OutEvent) : (s.emit es).haltCause = s.haltCause := rfl
@[simp] theorem emit_prompted (s : State) (es : List OutEvent) : (s.emit es).prompted = s.prompted := rfl
@[simp] theorem emit_kbq (s : State) (es : List OutEvent) : (s.emit es).kbq = s.kbq := rfl
@[simp] theorem emit_out (s : State) (es : List OutEvent) : (s.emit es).out = s.out ++ es := rfl
@[simp] theorem emit_stopReq (s : State) (es : List OutEvent) : (s.emit es).stopReq = s.stopReq := rfl
@[simp] theorem emit_config (s : State) (es : List OutEvent) : (s.emit es).config = s.config := rfl
@[simp] theorem emit_reg (s : State) (es : List OutEvent) (q : Reg) : (s.emit es).reg q = s.reg q := rfl
@[simp] theorem emit_peek (s : State) (es : List OutEvent) (x : Word) : (s.emit es).peek x = s.peek x := rfl
@[simp] theorem emit_nextPc (s : State) (es : List OutEvent) : (s.emit es).nextPc = s.nextPc := rfl

@[simp] theorem setPrompted_regs (s : State) (b : Bool) : (s.setPrompted b).regs = s.regs := rfl
@[simp] theorem setPrompted_pc (s : State) (b : Bool) : (s.setPrompted b).pc = s.pc := rfl
@[simp] theorem setPrompted_cond (s : State) (b : Bool) : (s.setPrompted b).cond = s.cond := rfl
@[simp] theorem setPrompted_mem (s : State) (b : Bool) : (s.setPrompted b).mem = s.mem := rfl
@[simp] theorem setPrompted_run (s : State) (b : Bool) : (s.setPrompted b).run = s.run := rfl
@[simp] theorem setPrompted_haltCause (s : State) (b : Bool) : (s.setPrompted b).haltCause = s.haltCause := rfl
@[simp] theorem setPrompted_prompted (s : State) (b : Bool) : (s.setPrompted b).prompted = b := rfl
@[simp] theorem setPrompted_kbq (s : State) (b : Bool) : (s.setPrompted b).kbq = s.kbq := rfl
@[simp] theorem setPrompted_out (s : State) (b : Bool) : (s.setPrompted b).out = s.out := rfl
@[simp] theorem setPrompted_stopReq (s : State) (b : Bool) : (s.setPrompted b).stopReq = s.stopReq := rfl
@[simp] theorem setPrompted_config (s : State) (b : Bool) : (s.setPrompted b).config = s.config := rfl
@[simp] theorem setPrompted_reg (s : State) (b : Bool) (q : Reg) : (s.setPrompted b).reg q = s.reg q := rfl
@[simp] theorem setPrompted_peek (s : State) (b : Bool) (x : Word) : (s.setPrompted b).peek x = s.peek x := rfl
@[simp] theorem setPrompted_nextPc (s : State) (b : Bool) : (s.setPrompted b).nextPc = s.nextPc := rfl

@[simp] theorem setStopReq_regs (s : State) (b : Bool) : (s.setStopReq b).regs = s.regs := rfl
@[simp] theorem setStopReq_pc (s : State) (b : Bool) : (s.setStopReq b).pc = s.pc := rfl
@[simp] theorem setStopReq_cond (s : State) (b : Bool) : (s.setStopReq b).cond = s.cond := rfl
@[simp] theorem setStopReq_mem (s : State) (b : Bool) : (s.setStopReq b).mem = s.mem := rfl
@[simp] theorem setStopReq_run (s : State) (b : Bool) : (s.setStopReq b).run = s.run := rfl
@[simp] theorem setStopReq_haltCause (s : State) (b : Bool) : (s.setStopReq b).haltCause = s.haltCause := rfl
@[simp] theorem setStopReq_prompted (s : State) (b : Bool) : (s.setStopReq b).prompted = s.prompted := rfl
@[simp] theorem setStopReq_kbq (s : State) (b : Bool) : (s.setStopReq b).kbq = s.kbq := rfl
@[simp] theorem setStopReq_out (s : State) (b : Bool) : (s.setStopReq b).out = s.out := rfl
@[simp] theorem setStopReq_stopReq (s : State) (b : Bool) : (s.setStopReq b).stopReq = b := rfl
@[simp] theorem setStopReq_config (s : State) (b : Bool) : (s.setStopReq b).config = s.config := rfl
@[simp] theorem setStopReq_reg (s : State) (b : Bool) (q : Reg) : (s.setStopReq b).reg q = s.reg q := rfl
@[simp] theorem setStopReq_peek (s : State) (b : Bool) (x : Word) : (s.setStopReq b).peek x = s.peek x := rfl
@[simp] theorem setStopReq_nextPc (s : State) (b : Bool) : (s.setStopReq b).nextPc = s.nextPc := rfl

@[simp] theorem haltWith_regs (s : State) (c : HaltCause) : (s.haltWith c).regs = s.regs := rfl
@[simp] theorem haltWith_pc (s : State) (c : HaltCause) : (s.haltWith c).pc = s.pc := rfl
@[simp] theorem haltWith_cond (s : State) (c : HaltCause) : (s.haltWith c).cond = s.cond := rfl
@[simp] theorem haltWith_mem (s : State) (c : HaltCause) : (s.haltWith c).mem = s.mem := rfl
@[simp] theorem haltWith_run (s : State) (c : HaltCause) : (s.haltWith c).run = .halted := rfl
@[simp] theorem haltWith_haltCause (s : State) (c : HaltCause) : (s.haltWith c).haltCause = c := rfl
@[simp] theorem haltWith_prompted (s : State) (c : HaltCause) : (s.haltWith c).prompted = s.prompted := rfl
@[simp] theorem haltWith_kbq (s : State) (c : HaltCause) : (s.haltWith c).kbq = s.kbq := rfl
@[simp] theorem haltWith_out (s : State) (c : HaltCause) : (s.haltWith c).out = s.out := rfl
@[simp] theorem haltWith_stopReq (s : State) (c : HaltCause) : (s.haltWith c).stopReq = s.stopReq := rfl
@[simp] theorem haltWith_config (s : State) (c : HaltCause) : (s.haltWith c).config = s.config := rfl
@[simp] theorem haltWith_reg (s : State) (c : HaltCause) (q : Reg) : (s.haltWith c).reg q = s.reg q := rfl
@[simp] theorem haltWith_peek (s : State) (c : HaltCause) (x : Word) : (s.haltWith c).peek x = s.peek x := rfl
@[simp] theorem haltWith_nextPc (s : State) (c : HaltCause) : (s.haltWith c).nextPc = s.nextPc := rfl

/-! ### Reading back a register -/

/-- A register just written holds what was written: none is hardwired (10_state.md R20). -/
@[simp] theorem reg_setReg_same (s : State) (r : Reg) (v : Word) : (s.setReg r v).reg r = v := by cases r <;> rfl

/-- Writing a register leaves every other register. -/
theorem reg_setReg_ne (s : State) (r q : Reg) (v : Word) (h : q ≠ r) : (s.setReg r v).reg q = s.reg q := by
  cases r <;> cases q <;> first | rfl | exact absurd rfl h

/-- Reading a register after a write of one. -/
theorem reg_setReg (s : State) (r q : Reg) (v : Word) : (s.setReg r v).reg q = if q = r then v else s.reg q := by
  split
  · next h => rw [h, reg_setReg_same]
  · next h => exact reg_setReg_ne s r q v h

/-- The next PC of a state is its PC plus one. -/
theorem nextPc_eq (s : State) : s.nextPc = s.pc + 1#16 := rfl

end Sys2Proof.Machine
end

