-- ==== Sys2Proof/Laws/Memory.lean ====
section
/-! SUPPORT. Memory: a read after a write, and every operation keeps the canonical form (20_memory.md R50, R53). -/

namespace Sys2Proof.Machine

/-- A memory whose addresses all lie at or above `lo` lists nothing below it. -/
theorem Memory.read_below {lo : Nat} {m : Memory} (h : m.wfFrom lo = true) {a : Nat} (ha : a < lo) :
    m.read a = Memory.unlisted := by
  induction m generalizing lo with
  | nil => rfl
  | cons c rest ih =>
    obtain ⟨b, w⟩ := c
    simp only [Memory.wfFrom, Bool.and_eq_true, decide_eq_true_eq] at h
    have hab : a ≠ b := by omega
    simp only [Memory.read, if_neg hab]
    exact ih h.2 (by omega)

/-- The canonical form from one address holds from every lower one. -/
theorem Memory.wfFrom_mono {lo lo' : Nat} {m : Memory} (h : m.wfFrom lo = true) (hl : lo' ≤ lo) : m.wfFrom lo' = true := by
  cases m with
  | nil => rfl
  | cons c rest =>
    obtain ⟨b, w⟩ := c
    simp only [Memory.wfFrom, Bool.and_eq_true, decide_eq_true_eq] at h ⊢
    exact ⟨⟨⟨by omega, h.1.1.2⟩, h.1.2⟩, h.2⟩

/-- Reading a memory from which one cell is erased. -/
theorem Memory.read_erase (m : Memory) (a b : Nat) :
    (m.erase a).read b = if b = a then Memory.unlisted else m.read b := by
  induction m with
  | nil => simp [Memory.erase, Memory.read]
  | cons c rest ih =>
    obtain ⟨d, w⟩ := c
    by_cases hd : d = a <;> by_cases hb : b = d <;> simp_all [Memory.erase, Memory.read]

/-- Reading a memory into which one cell is inserted. -/
theorem Memory.read_insert (m : Memory) (a b : Nat) (v : Word) :
    (m.insert a v).read b = if b = a then v else m.read b := by
  induction m with
  | nil => simp [Memory.insert, Memory.read]
  | cons c rest ih =>
    obtain ⟨d, w⟩ := c
    unfold Memory.insert
    split
    · simp [Memory.read]
    · next had =>
      simp only [Memory.read, ih]
      by_cases hbd : b = d
      · have : b ≠ a := by omega
        simp [hbd, show d ≠ a by omega]
      · simp [hbd]

/-- A read after a write gives the value written, and every other cell as before. -/
theorem Memory.read_write (m : Memory) (a b : Nat) (v : Word) : (m.write a v).read b = if b = a then v else m.read b := by
  unfold Memory.write
  split
  · next hv => rw [Memory.read_erase, hv]
  · rw [Memory.read_insert, Memory.read_erase]
    by_cases hb : b = a <;> simp [hb]

/-- Erasing a cell keeps the canonical form. -/
theorem Memory.wfFrom_erase {lo : Nat} {m : Memory} (h : m.wfFrom lo = true) (a : Nat) : (m.erase a).wfFrom lo = true := by
  induction m generalizing lo with
  | nil => rfl
  | cons c rest ih =>
    obtain ⟨d, w⟩ := c
    simp only [Memory.wfFrom, Bool.and_eq_true, decide_eq_true_eq] at h
    unfold Memory.erase
    split
    · exact Memory.wfFrom_mono (ih h.2) (by omega)
    · simp [Memory.wfFrom, h.1.1.1, h.1.1.2, h.1.2, ih h.2]

/-- Inserting a cell that is not listed keeps the canonical form. -/
theorem Memory.wfFrom_insert {lo a : Nat} {v : Word} {m : Memory} (h : m.wfFrom lo = true) (hr : m.read a = Memory.unlisted)
    (hlo : lo ≤ a) (ha : a < 65536) (hv : v ≠ Memory.unlisted) : (m.insert a v).wfFrom lo = true := by
  induction m generalizing lo with
  | nil => simp [Memory.insert, Memory.wfFrom, hlo, ha, hv]
  | cons c rest ih =>
    obtain ⟨d, w⟩ := c
    simp only [Memory.wfFrom, Bool.and_eq_true, decide_eq_true_eq] at h
    have had : a ≠ d := fun e => h.1.2 (by simpa [Memory.read, e] using hr)
    have hr' : Memory.read rest a = Memory.unlisted := by simpa [Memory.read, had] using hr
    unfold Memory.insert
    split
    · simp [Memory.wfFrom, hlo, ha, hv, h.1.1.2, h.1.2, h.2]
      omega
    · next hle => simp [Memory.wfFrom, h.1.1.1, h.1.1.2, h.1.2, ih h.2 hr' (by omega)]

/-- A write keeps the canonical form. -/
theorem Memory.wfFrom_write {lo a : Nat} {v : Word} {m : Memory} (hm : m.wfFrom lo = true) (hlo : lo ≤ a)
    (ha : a < 65536) : (m.write a v).wfFrom lo = true := by
  unfold Memory.write
  split
  · exact Memory.wfFrom_erase hm a
  · next hv => exact Memory.wfFrom_insert (Memory.wfFrom_erase hm a) (by simp [Memory.read_erase]) hlo ha hv

/-- A write to an address of the machine keeps the canonical form. -/
theorem Memory.wf_write {m : Memory} (h : m.wf = true) (a : Word) (v : Word) : (m.write a.toNat v).wf = true :=
  Memory.wfFrom_write h (Nat.zero_le _) a.isLt

/-- Two canonical memories with the same contents are the same list. -/
theorem Memory.ext_of_read {lo : Nat} {m n : Memory} (hm : m.wfFrom lo = true) (hn : n.wfFrom lo = true)
    (h : ∀ a, m.read a = n.read a) : m = n := by
  induction m generalizing lo n with
  | nil =>
    cases n with
    | nil => rfl
    | cons c rest =>
      obtain ⟨b, w⟩ := c
      simp only [Memory.wfFrom, Bool.and_eq_true, decide_eq_true_eq] at hn
      exact absurd (by simpa [Memory.read] using (h b).symm) hn.1.2
  | cons c rest ih =>
    obtain ⟨b, w⟩ := c
    have hm' := hm
    simp only [Memory.wfFrom, Bool.and_eq_true, decide_eq_true_eq] at hm
    cases n with
    | nil => exact absurd (by simpa [Memory.read] using h b) hm.1.2
    | cons c' rest' =>
      obtain ⟨b', w'⟩ := c'
      have hn' := hn
      simp only [Memory.wfFrom, Bool.and_eq_true, decide_eq_true_eq] at hn
      have hb : b = b' := by
        rcases Nat.lt_trichotomy b b' with hlt | heq | hgt
        · have := h b
          rw [Memory.read_below (lo := b') (m := (b', w') :: rest') (by simp [Memory.wfFrom, hn.1.1.2, hn.1.2, hn.2]) hlt] at this
          exact absurd (by simpa [Memory.read] using this) hm.1.2
        · exact heq
        · have := h b'
          rw [Memory.read_below (lo := b) (m := (b, w) :: rest) (by simp [Memory.wfFrom, hm.1.1.2, hm.1.2, hm.2]) hgt] at this
          exact absurd (by simpa [Memory.read] using this.symm) hn.1.2
      subst hb
      have hw : w = w' := by simpa [Memory.read] using h b
      subst hw
      congr 1
      refine ih hm.2 hn.2 fun a => ?_
      by_cases ha : a = b
      · rw [Memory.read_below hm.2 (by omega), Memory.read_below hn.2 (by omega)]
      · simpa [Memory.read, ha] using h a

/-- A cell read after MemWrite. -/
theorem peek_memWrite (s : State) (a b v : Word) : (s.memWrite a v).peek b = if b = a then v else s.peek b := by
  unfold State.peek
  rw [memWrite_mem, Memory.read_write]
  by_cases hb : b = a
  · simp [hb]
  · have : b.toNat ≠ a.toNat := fun h => hb (BitVec.eq_of_toNat_eq h)
    simp [hb, this]

/-- MemWrite keeps the canonical form. -/
theorem memWrite_wf {s : State} (h : s.mem.wf = true) (a v : Word) : (s.memWrite a v).mem.wf = true :=
  Memory.wf_write h a v

/-- Laying words down keeps the canonical form. -/
theorem Memory.wf_loadWords (lastCell : Bool) (ws : List Word) (a : Nat) {m : Memory} (h : m.wf = true) :
    (m.loadWords lastCell a ws).wf = true := by
  induction ws generalizing a m with
  | nil => exact h
  | cons w ws ih =>
    unfold Memory.loadWords
    split
    · exact ih _ (Memory.wfFrom_write h (Nat.zero_le _) (by omega))
    · split
      · next ha => exact Memory.wfFrom_write h (Nat.zero_le _) (by omega)
      · exact h

/-- Loading images keeps the canonical form. -/
theorem Memory.wf_loadImages (lastCell : Bool) (is : List Image) {m : Memory} (h : m.wf = true) :
    (m.loadImages lastCell is).wf = true := by
  induction is generalizing m with
  | nil => exact h
  | cons i rest ih => exact ih (Memory.wf_loadWords lastCell i.words _ h)

end Sys2Proof.Machine
end

