-- ==== Sys2Proof/Laws/Ops.lean ====
section
/-! SUPPORT. What each shared operation can do, once: the keyboard poll, MemRead, the flags, the ways a handler ends, the
string scan, the step. -/

namespace Sys2Proof.Machine

/-! ### The keyboard device (20_memory.md R52) -/

@[simp] theorem pollKeyboard_regs (s : State) : s.pollKeyboard.regs = s.regs := by
  unfold State.pollKeyboard; split <;> rfl
@[simp] theorem pollKeyboard_pc (s : State) : s.pollKeyboard.pc = s.pc := by
  unfold State.pollKeyboard; split <;> rfl
@[simp] theorem pollKeyboard_cond (s : State) : s.pollKeyboard.cond = s.cond := by
  unfold State.pollKeyboard; split <;> rfl
@[simp] theorem pollKeyboard_run (s : State) : s.pollKeyboard.run = s.run := by
  unfold State.pollKeyboard; split <;> rfl
@[simp] theorem pollKeyboard_haltCause (s : State) : s.pollKeyboard.haltCause = s.haltCause := by
  unfold State.pollKeyboard; split <;> rfl
@[simp] theorem pollKeyboard_prompted (s : State) : s.pollKeyboard.prompted = s.prompted := by
  unfold State.pollKeyboard; split <;> rfl
@[simp] theorem pollKeyboard_out (s : State) : s.pollKeyboard.out = s.out := by
  unfold State.pollKeyboard; split <;> rfl
@[simp] theorem pollKeyboard_stopReq (s : State) : s.pollKeyboard.stopReq = s.stopReq := by
  unfold State.pollKeyboard; split <;> rfl
@[simp] theorem pollKeyboard_config (s : State) : s.pollKeyboard.config = s.config := by
  unfold State.pollKeyboard; split <;> rfl

/-- A poll takes the head of KBQ, if there is one. -/
@[simp] theorem pollKeyboard_kbq (s : State) : s.pollKeyboard.kbq = s.kbq.tail := by
  unfold State.pollKeyboard
  split <;> next h => simp [h]

/-- A poll with no character pending clears the status cell and no other. -/
theorem peek_pollKeyboard_nil {s : State} (h : s.kbq = []) (x : Word) :
    s.pollKeyboard.peek x = if x = s.config.kbsrAddr then 0x0000#16 else s.peek x := by
  unfold State.pollKeyboard
  rw [h]
  exact peek_memWrite s _ _ _

/-- A poll with a character pending sets the status cell and puts the character in the data cell. -/
theorem peek_pollKeyboard_cons {s : State} {c : Byte} {q : List Byte} (h : s.kbq = c :: q) (x : Word) :
    s.pollKeyboard.peek x = if x = s.config.kbdrAddr then zext8 c
      else if x = s.config.kbsrAddr then 0x8000#16 else s.peek x := by
  unfold State.pollKeyboard
  rw [h]
  simp [peek_memWrite]

/-- A poll changes the two device cells and no other. -/
theorem peek_pollKeyboard_other (s : State) {x : Word} (h1 : x ≠ s.config.kbsrAddr) (h2 : x ≠ s.config.kbdrAddr) :
    s.pollKeyboard.peek x = s.peek x := by
  match h : s.kbq with
  | [] => rw [peek_pollKeyboard_nil h, if_neg h1]
  | c :: q => rw [peek_pollKeyboard_cons h, if_neg h2, if_neg h1]

/-- A poll keeps the canonical form. -/
theorem pollKeyboard_wf {s : State} (h : s.mem.wf = true) : s.pollKeyboard.mem.wf = true := by
  unfold State.pollKeyboard
  split
  · exact memWrite_wf h _ _
  · exact memWrite_wf (memWrite_wf h _ _) _ _

/-! ### MemRead -/

/-- A read of any address but KBSR_ADDR is the cell, with no side effect. -/
theorem memRead_plain {s : State} {a : Word} (h : a ≠ s.config.kbsrAddr) : s.memRead a = (s.peek a, s) := if_neg h

/-- A read of KBSR_ADDR polls first. -/
theorem memRead_status (s : State) :
    s.memRead s.config.kbsrAddr = (s.pollKeyboard.peek s.config.kbsrAddr, s.pollKeyboard) := if_pos rfl

/-- The value read is the content of the cell after the read. -/
theorem memRead_fst (s : State) (a : Word) : (s.memRead a).1 = (s.memRead a).2.peek a := by
  unfold State.memRead; split <;> rfl

@[simp] theorem memRead_regs (s : State) (a : Word) : (s.memRead a).2.regs = s.regs := by
  unfold State.memRead; split <;> simp
@[simp] theorem memRead_pc (s : State) (a : Word) : (s.memRead a).2.pc = s.pc := by
  unfold State.memRead; split <;> simp
@[simp] theorem memRead_cond (s : State) (a : Word) : (s.memRead a).2.cond = s.cond := by
  unfold State.memRead; split <;> simp
@[simp] theorem memRead_run (s : State) (a : Word) : (s.memRead a).2.run = s.run := by
  unfold State.memRead; split <;> simp
@[simp] theorem memRead_haltCause (s : State) (a : Word) : (s.memRead a).2.haltCause = s.haltCause := by
  unfold State.memRead; split <;> simp
@[simp] theorem memRead_prompted (s : State) (a : Word) : (s.memRead a).2.prompted = s.prompted := by
  unfold State.memRead; split <;> simp
@[simp] theorem memRead_out (s : State) (a : Word) : (s.memRead a).2.out = s.out := by
  unfold State.memRead; split <;> simp
@[simp] theorem memRead_stopReq (s : State) (a : Word) : (s.memRead a).2.stopReq = s.stopReq := by
  unfold State.memRead; split <;> simp
@[simp] theorem memRead_config (s : State) (a : Word) : (s.memRead a).2.config = s.config := by
  unfold State.memRead; split <;> simp

/-- A read leaves every general register. -/
@[simp] theorem memRead_reg (s : State) (a : Word) (r : Reg) : (s.memRead a).2.reg r = s.reg r := by
  simp [State.reg]

/-- A read leaves PC'. -/
@[simp] theorem memRead_nextPc (s : State) (a : Word) : (s.memRead a).2.nextPc = s.nextPc := by
  simp [State.nextPc]

/-- A read keeps the canonical form. -/
theorem memRead_wf {s : State} (h : s.mem.wf = true) (a : Word) : (s.memRead a).2.mem.wf = true := by
  unfold State.memRead
  split
  · exact pollKeyboard_wf h
  · exact h

/-- A read takes at most the head of KBQ. -/
theorem memRead_kbq (s : State) (a : Word) :
    (s.memRead a).2.kbq = if a = s.config.kbsrAddr then s.kbq.tail else s.kbq := by
  unfold State.memRead; split <;> simp

/-- A read changes no cell but the two device cells. -/
theorem peek_memRead_other (s : State) (a : Word) {x : Word} (h1 : x ≠ s.config.kbsrAddr) (h2 : x ≠ s.config.kbdrAddr) :
    (s.memRead a).2.peek x = s.peek x := by
  unfold State.memRead
  split
  · exact peek_pollKeyboard_other s h1 h2
  · rfl

/-! ### Flags -/

/-- The flags computed from a value are the flags its signed reading asks for (10_state.md R25). -/
theorem flagsOf_condOf (v : Word) : FlagsOf v (condOf v) := by
  have hm : v.getLsbD 15 = v.msb := by simp [BitVec.msb_eq_getLsbD_last]
  have hz : v.toInt = 0 ↔ v = 0x0000#16 := by
    constructor
    · intro h; exact BitVec.eq_of_toInt_eq (by simpa using h)
    · intro h; simp [h]
  have hn := BitVec.msb_eq_toInt (x := v)
  unfold condOf
  rw [hm, hn]
  by_cases h : v.toInt < 0
  · constructor <;> simp [h] <;> omega
  · by_cases h0 : v = 0x0000#16
    · constructor <;> simp [h0]
    · have := mt hz.mp h0
      constructor <;> simp [h, h0] <;> omega

/-- The flags of any value are exactly one of N, Z, P. -/
theorem oneFlag_condOf (v : Word) : OneFlag (condOf v) := by
  unfold condOf OneFlag
  split
  · exact .inl rfl
  · split
    · exact .inr (.inl rfl)
    · exact .inr (.inr rfl)

/-! ### Addresses -/

/-- Sign extension is the two's complement of the field's signed value (00_scope.md R11). -/
theorem sext_eq_ofInt {n : Nat} (f : BitVec n) : sext f = BitVec.ofInt 16 f.toInt := rfl

/-- A word plus a signed distance, computed over the integers and reduced modulo 2^16. -/
theorem add_ofInt (w : Word) (d : Int) : w + BitVec.ofInt 16 d = BitVec.ofInt 16 ((w.toNat : Int) + d) := by
  rw [BitVec.ofInt_add, BitVec.ofInt_natCast, BitVec.ofNat_toNat, BitVec.setWidth_eq]

/-- The PC-relative address is PC' + off modulo 2^16 (43_load.md R170 (a)). -/
theorem pcRelative_eq {n : Nat} (s : State) (off : BitVec n) : s.pcRelative off = s.pcPlus off.toInt := by
  unfold State.pcRelative State.pcPlus State.nextPc
  have h1 : (1#16 : Word) = BitVec.ofInt 16 1 := rfl
  rw [sext_eq_ofInt, h1, BitVec.add_assoc, ← BitVec.ofInt_add, add_ofInt, Int.add_assoc]

/-- The base-plus-offset address is R[BaseR] + off modulo 2^16 (R170 (b)). -/
theorem baseOffset_eq (s : State) (b : Reg) (off6 : BitVec 6) : s.baseOffset b off6 = s.basePlus b off6.toInt := by
  unfold State.baseOffset State.basePlus
  rw [sext_eq_ofInt, add_ofInt]

/-! ### The ends of a handler -/

/-- A completed handler answers a next state, with PC' in PC. -/
theorem complete_eq (s : State) : complete s = .next (s.setPc (s.pc + 1#16)) := rfl

/-- The decode error answers a next state: Halted with its cause. -/
theorem raiseDecodeError_eq (c : HaltCause) (s : State) : raiseDecodeError c s = .next (s.haltWith c) := rfl

/-! ### The string scan -/

/-- What a scan leaves unchanged: it touches KBQ, OUT and the two device cells alone. -/
structure ScanKeeps (s t : State) : Prop where
  regs : t.regs = s.regs
  pc : t.pc = s.pc
  cond : t.cond = s.cond
  control : ControlKept s t
  cells : ∀ x, x ≠ s.config.kbsrAddr → x ≠ s.config.kbdrAddr → t.peek x = s.peek x
  out : ∃ bs : List Byte, t.out = s.out ++ bs.map .write
  kbq : ∃ n, t.kbq = s.kbq.drop n
  form : s.mem.wf = true → t.mem.wf = true

/-- One read is a scan of no cells. -/
theorem scanKeeps_memRead (s : State) (a : Word) : ScanKeeps s (s.memRead a).2 where
  regs := by simp
  pc := by simp
  cond := by simp
  control := ⟨by simp, by simp, by simp, by simp, by simp⟩
  cells _ h1 h2 := peek_memRead_other s a h1 h2
  out := ⟨[], by simp⟩
  kbq := by
    rw [memRead_kbq]
    split
    · exact ⟨1, by simp⟩
    · exact ⟨0, by simp⟩
  form h := memRead_wf h a

/-- Two scans in a row, with bytes written between them. -/
theorem ScanKeeps.trans {s m t : State} {bs : List Byte} (h : ScanKeeps s m) (k : ScanKeeps (m.emit (writes bs)) t) :
    ScanKeeps s t where
  regs := by rw [k.regs, emit_regs, h.regs]
  pc := by rw [k.pc, emit_pc, h.pc]
  cond := by rw [k.cond, emit_cond, h.cond]
  control :=
    { run := by rw [k.control.run, emit_run, h.control.run]
      haltCause := by rw [k.control.haltCause, emit_haltCause, h.control.haltCause]
      prompted := by rw [k.control.prompted, emit_prompted, h.control.prompted]
      stopReq := by rw [k.control.stopReq, emit_stopReq, h.control.stopReq]
      config := by rw [k.control.config, emit_config, h.control.config] }
  cells x h1 h2 := by
    have hc : (m.emit (writes bs)).config = s.config := h.control.config
    rw [k.cells x (by rwa [hc]) (by rwa [hc]), emit_peek, h.cells x h1 h2]
  out := by
    obtain ⟨b1, e1⟩ := h.out
    obtain ⟨b2, e2⟩ := k.out
    exact ⟨b1 ++ bs ++ b2, by simp [e2, e1, writes]⟩
  kbq := by
    obtain ⟨n, e1⟩ := h.kbq
    obtain ⟨n', e2⟩ := k.kbq
    exact ⟨n + n', by simp [e2, e1]⟩
  form hw := k.form (h.form hw)

/-- A scan that ends keeps everything `ScanKeeps` lists. -/
theorem scanString_keeps {bytesOf : Word → List Byte} {fuel : Nat} {a : Word} {s t : State}
    (h : scanString bytesOf fuel a s = some t) : ScanKeeps s t := by
  induction fuel generalizing a s with
  | zero => cases h
  | succ n ih =>
    unfold scanString at h
    split at h
    · cases h; exact scanKeeps_memRead s a
    · exact (scanKeeps_memRead s a).trans (ih h)

/-- A scan with fuel ends in `t` exactly when the loop of the rules does, in fewer reads of non-zero cells than the fuel. -/
theorem scanString_eq_some {bytesOf : Word → List Byte} {fuel : Nat} {a : Word} {s t : State} :
    scanString bytesOf fuel a s = some t ↔ ∃ n, n < fuel ∧ StringScan bytesOf n a s t := by
  induction fuel generalizing a s with
  | zero => simp [scanString]
  | succ fuel ih =>
    unfold scanString
    split
    · next hz =>
      constructor
      · intro h; cases h; exact ⟨0, Nat.succ_pos _, .stop hz⟩
      · rintro ⟨n, -, h⟩
        cases h with
        | stop _ => rfl
        | cell hnz _ => exact absurd hz hnz
    · next hnz =>
      rw [ih]
      constructor
      · rintro ⟨n, hn, h⟩; exact ⟨n + 1, by omega, .cell hnz h⟩
      · rintro ⟨n, hn, h⟩
        cases h with
        | stop hz => exact absurd hz hnz
        | cell _ h => exact ⟨_, by omega, h⟩

/-- A scan that finds no zero cell, and does not pass the status cell, runs out of fuel. -/
theorem scanString_eq_none {bytesOf : Word → List Byte} {fuel : Nat} {a : Word} {s : State}
    (h : ∀ k, k < fuel → a + BitVec.ofNat 16 k ≠ s.config.kbsrAddr ∧ s.peek (a + BitVec.ofNat 16 k) ≠ 0x0000#16) :
    scanString bytesOf fuel a s = none := by
  induction fuel generalizing a s with
  | zero => rfl
  | succ fuel ih =>
    obtain ⟨h1, h2⟩ := h 0 (Nat.succ_pos _)
    simp only [BitVec.add_zero] at h1 h2
    unfold scanString
    rw [memRead_plain h1, if_neg h2]
    refine ih fun k hk => ?_
    have := h (k + 1) (by omega)
    rwa [Nat.add_comm, BitVec.ofNat_add, ← BitVec.add_assoc] at this

/-- Everything PUTS and PUTSP can do: link and scan and go on, or never finish. -/
theorem putString_cases (bytesOf : Word → List Byte) (s : State) :
    (∃ t, scanString bytesOf scanLimit (s.reg .r0) s.link = some t ∧ putString bytesOf s = .next (t.setPc t.nextPc)) ∨
    (scanString bytesOf scanLimit (s.reg .r0) s.link = none ∧ putString bytesOf s = .fault .stuckStringScan) := by
  have h0 : s.link.reg .r0 = s.reg .r0 := reg_setReg_ne s .r7 .r0 _ (by decide)
  unfold putString
  rw [h0]
  match h : scanString bytesOf scanLimit (s.reg .r0) s.link with
  | some t => exact .inl ⟨t, rfl, rfl⟩
  | none => exact .inr ⟨rfl, rfl⟩

/-! ### The step -/

/-- Everything a step can do: nothing when Halted, the external stop, or the fetched instruction. -/
theorem step_cases (s : State) :
    (s.run = .halted ∧ step s = .next s) ∨
    (s.run = .running ∧ s.stopReq = true ∧ step s = .next (s.haltWith .extStop)) ∨
    (s.fetches ∧ step s = exec s.current s.fetch.2) := by
  unfold step State.fetches State.current
  match s.run, s.stopReq with
  | .halted, _ => exact .inl ⟨rfl, rfl⟩
  | .running, true => exact .inr (.inl ⟨rfl, rfl, rfl⟩)
  | .running, false => exact .inr (.inr ⟨⟨rfl, rfl⟩, rfl⟩)

end Sys2Proof.Machine
end

