-- ==== Sys2Proof/Laws/PerInstr.lean ====
section
/-! SUPPORT. Laws stated instruction by instruction. Family `EncodeOpcode`: the top four bits of an instruction's word are
its opcode number (30_encoding.md R85). -/

namespace Sys2Proof.Laws.EncodeOpcode

/-- The opcode number of an instruction (R85). -/
def opcodeOf : Instr → BitVec 4
  | .br _ _ => 0x0#4
  | .addReg _ _ _ | .addImm _ _ _ => 0x1#4
  | .ld _ _ => 0x2#4
  | .st _ _ => 0x3#4
  | .jsr _ | .jsrr _ => 0x4#4
  | .andReg _ _ _ | .andImm _ _ _ => 0x5#4
  | .ldr _ _ _ => 0x6#4
  | .str _ _ _ => 0x7#4
  | .rti => 0x8#4
  | .not _ _ => 0x9#4
  | .ldi _ _ => 0xA#4
  | .sti _ _ => 0xB#4
  | .ret | .jmp _ => 0xC#4
  | .res => 0xD#4
  | .lea _ _ => 0xE#4
  | .getc | .out | .puts | .inChar | .putsp | .halt | .trap _ => 0xF#4

/-- The word of an instruction has its opcode number in bits [15:12]. -/
def Statement (i : Instr) : Prop := opcodeField (encode i) = opcodeOf i

/-- The opcode field of a union of placed fields is the union of their opcode fields. -/
theorem opcodeField_or (v w : Word) : opcodeField (v ||| w) = opcodeField v ||| opcodeField w := by
  simp [opcodeField, BitVec.extractLsb'_or]

/-- A field that ends below bit 12 is not seen in the opcode. -/
theorem opcodeField_place_low {n : Nat} (f : BitVec n) (lo : Nat) (h : n + lo ≤ 12) : opcodeField (place f lo) = 0#4 := by
  apply BitVec.eq_of_getLsbD_eq
  intro i hi
  have hf : f.getLsbD (12 + i - lo) = false := BitVec.getLsbD_of_ge f _ (by omega)
  simp [opcodeField, place, hi, hf]

/-- A 4-bit field placed at bit 12 is the opcode. -/
theorem opcodeField_place_top (op : BitVec 4) : opcodeField (place op 12) = op := by
  apply BitVec.eq_of_getLsbD_eq
  intro i hi
  interval_cases i <;> simp [opcodeField, place]

theorem addReg (dr sr1 sr2 : Reg) : Statement (.addReg dr sr1 sr2) := by
  simp [Statement, opcodeOf, encode, encOpr, opcodeField_or, opcodeField_place_low, opcodeField_place_top]

theorem addImm (dr sr1 : Reg) (imm5 : BitVec 5) : Statement (.addImm dr sr1 imm5) := by
  simp [Statement, opcodeOf, encode, encOpi, opcodeField_or, opcodeField_place_low, opcodeField_place_top]

theorem andReg (dr sr1 sr2 : Reg) : Statement (.andReg dr sr1 sr2) := by
  simp [Statement, opcodeOf, encode, encOpr, opcodeField_or, opcodeField_place_low, opcodeField_place_top]

theorem andImm (dr sr1 : Reg) (imm5 : BitVec 5) : Statement (.andImm dr sr1 imm5) := by
  simp [Statement, opcodeOf, encode, encOpi, opcodeField_or, opcodeField_place_low, opcodeField_place_top]

theorem not (dr sr1 : Reg) : Statement (.not dr sr1) := by
  simp [Statement, opcodeOf, encode, opcodeField_or, opcodeField_place_low, opcodeField_place_top]

theorem br (mask : BitVec 3) (off9 : BitVec 9) : Statement (.br mask off9) := by
  simp [Statement, opcodeOf, encode, encPc9, opcodeField_or, opcodeField_place_low, opcodeField_place_top]

theorem ret : Statement .ret := rfl

theorem jmp (baseR : Reg) : Statement (.jmp baseR) := by
  simp [Statement, opcodeOf, encode, encBase, opcodeField_or, opcodeField_place_low, opcodeField_place_top]

theorem jsr (off11 : BitVec 11) : Statement (.jsr off11) := by
  simp [Statement, opcodeOf, encode, opcodeField_or, opcodeField_place_low, opcodeField_place_top]

theorem jsrr (baseR : Reg) : Statement (.jsrr baseR) := by
  simp [Statement, opcodeOf, encode, encBase, opcodeField_or, opcodeField_place_low, opcodeField_place_top]

theorem ld (dr : Reg) (off9 : BitVec 9) : Statement (.ld dr off9) := by
  simp [Statement, opcodeOf, encode, encPc9, opcodeField_or, opcodeField_place_low, opcodeField_place_top]

theorem ldi (dr : Reg) (off9 : BitVec 9) : Statement (.ldi dr off9) := by
  simp [Statement, opcodeOf, encode, encPc9, opcodeField_or, opcodeField_place_low, opcodeField_place_top]

theorem ldr (dr baseR : Reg) (off6 : BitVec 6) : Statement (.ldr dr baseR off6) := by
  simp [Statement, opcodeOf, encode, encBase6, opcodeField_or, opcodeField_place_low, opcodeField_place_top]

theorem lea (dr : Reg) (off9 : BitVec 9) : Statement (.lea dr off9) := by
  simp [Statement, opcodeOf, encode, encPc9, opcodeField_or, opcodeField_place_low, opcodeField_place_top]

theorem st (sr : Reg) (off9 : BitVec 9) : Statement (.st sr off9) := by
  simp [Statement, opcodeOf, encode, encPc9, opcodeField_or, opcodeField_place_low, opcodeField_place_top]

theorem sti (sr : Reg) (off9 : BitVec 9) : Statement (.sti sr off9) := by
  simp [Statement, opcodeOf, encode, encPc9, opcodeField_or, opcodeField_place_low, opcodeField_place_top]

theorem str (sr baseR : Reg) (off6 : BitVec 6) : Statement (.str sr baseR off6) := by
  simp [Statement, opcodeOf, encode, encBase6, opcodeField_or, opcodeField_place_low, opcodeField_place_top]

theorem getc : Statement .getc := rfl

theorem out : Statement .out := rfl

theorem puts : Statement .puts := rfl

theorem inChar : Statement .inChar := rfl

theorem putsp : Statement .putsp := rfl

theorem halt : Statement .halt := rfl

theorem trap (vec : BitVec 8) : Statement (.trap vec) := by
  simp [Statement, opcodeOf, encode, encTrap, opcodeField_or, opcodeField_place_low, opcodeField_place_top]

theorem rti : Statement .rti := rfl

theorem res : Statement .res := rfl

end Sys2Proof.Laws.EncodeOpcode
end

