-- ==== Sys2Proof/Machine/Assembly.lean ====
section
/-! DEFINITION. The assembly text of an instruction (30_encoding.md R90 to R92). Nothing runs on it; "a model needs none". -/

namespace Sys2Proof.Machine

/-- `R` and the index (R90). -/
def regText : Reg → String
  | .r0 => "R0"
  | .r1 => "R1"
  | .r2 => "R2"
  | .r3 => "R3"
  | .r4 => "R4"
  | .r5 => "R5"
  | .r6 => "R6"
  | .r7 => "R7"

/-- `#` and a signed decimal number (R90). -/
def immText {n : Nat} (f : BitVec n) : String :=
  if f.toInt < 0 then "#-" ++ toString (2 ^ n - f.toNat) else "#" ++ toString f.toNat

/-- The mnemonic of BR with its condition letters (R91). DESIGN CHOICE, safe (log 16): cond-mask 000, for which R91 gives no
spelling, is printed as a bare `BR`, although "a bare `BR` in assemblers means `BRnzp`"; offset 0 too, not as NOP (R92). -/
def brText (mask : BitVec 3) : String :=
  "BR" ++ (if mask.getLsbD 2 then "n" else "") ++ (if mask.getLsbD 1 then "z" else "") ++ (if mask.getLsbD 0 then "p" else "")

/-- One hexadecimal digit; A to F in capitals (DESIGN CHOICE, safe, log 16). -/
def hexDigit (d : BitVec 4) : String :=
  ((["0", "1", "2", "3", "4", "5", "6", "7", "8", "9", "A", "B", "C", "D", "E", "F"] : List String)[d.toNat]?).getD ""

/-- `xNN`, an 8-bit vector in hexadecimal (R91). -/
def vectorText (v : BitVec 8) : String := "x" ++ hexDigit (v.extractLsb' 4 4) ++ hexDigit (v.extractLsb' 0 4)

/-- The text of an instruction: mnemonic, then operands in the order of R91. -/
def asmText : Instr → String
  | .addReg dr sr1 sr2 => "ADD " ++ regText dr ++ "," ++ regText sr1 ++ "," ++ regText sr2
  | .addImm dr sr1 imm5 => "ADD " ++ regText dr ++ "," ++ regText sr1 ++ "," ++ immText imm5
  | .andReg dr sr1 sr2 => "AND " ++ regText dr ++ "," ++ regText sr1 ++ "," ++ regText sr2
  | .andImm dr sr1 imm5 => "AND " ++ regText dr ++ "," ++ regText sr1 ++ "," ++ immText imm5
  | .not dr sr1 => "NOT " ++ regText dr ++ "," ++ regText sr1
  | .br mask off9 => brText mask ++ " " ++ immText off9
  | .ret => "RET"
  | .jmp baseR => "JMP " ++ regText baseR
  | .jsr off11 => "JSR " ++ immText off11
  | .jsrr baseR => "JSRR " ++ regText baseR
  | .ld dr off9 => "LD " ++ regText dr ++ "," ++ immText off9
  | .ldi dr off9 => "LDI " ++ regText dr ++ "," ++ immText off9
  | .ldr dr baseR off6 => "LDR " ++ regText dr ++ "," ++ regText baseR ++ "," ++ immText off6
  | .lea dr off9 => "LEA " ++ regText dr ++ "," ++ immText off9
  | .st sr off9 => "ST " ++ regText sr ++ "," ++ immText off9
  | .sti sr off9 => "STI " ++ regText sr ++ "," ++ immText off9
  | .str sr baseR off6 => "STR " ++ regText sr ++ "," ++ regText baseR ++ "," ++ immText off6
  | .getc => "GETC"
  | .out => "OUT"
  | .puts => "PUTS"
  | .inChar => "IN"
  | .putsp => "PUTSP"
  | .halt => "HALT"
  | .trap vec => "TRAP " ++ vectorText vec
  | .rti => "RTI"
  | .res => "RES"

end Sys2Proof.Machine
end

