-- ==== Sys2Proof/Machine/Ports.lean ====
section
/-! DEFINITION. The abstract ports of 10_state.md R34, as views of a state, or of the states before and after a step.
`start_pc` is `ResetArgs.startPc`, `stop_req` is the field `stopReq`; memory is state, not a port. -/

namespace Sys2Proof.Machine

/-- The number of a cause, as `halt_cause` shows it (10_state.md R27). -/
def HaltCause.code : HaltCause → BitVec 3
  | .none => 0#3
  | .haltTrap => 1#3
  | .extStop => 2#3
  | .errRti => 3#3
  | .errRes => 4#3
  | .errBadTrap => 5#3

/-- Port `halted`. -/
def State.haltedPort (s : State) : Bool := decide (s.run = .halted)

/-- Port `halt_cause`. -/
def State.haltCausePort (s : State) : BitVec 3 := s.haltCause.code

/-- Port `kb_avail`. -/
def State.kbAvailPort (s : State) : Bool := s.kbPoll

/-- Port `kb_data`: the head byte of KBQ, valid when `kb_avail`. -/
def State.kbDataPort (s : State) : Option Byte := s.kbq.head?

/-- The bytes taken from KBQ by a step from `s` to `t`: one pulse of `kb_take` each. -/
def kbTaken (s t : State) : List Byte := s.kbq.take (s.kbq.length - t.kbq.length)

/-- The OUT events of a step from `s` to `t`: one pulse of `out_valid` each. -/
def newEvents (s t : State) : List OutEvent := t.out.drop s.out.length

/-- Port `out_data`: the byte of an OUT event. A terminal that ignores the kind shows these bytes (R32). -/
def OutEvent.byte : OutEvent → Byte
  | .write b => b
  | .echo b => b

/-- Port `out_echo`: 1 for `Echo`, 0 for `Write`. -/
def OutEvent.isEcho : OutEvent → Bool
  | .write _ => false
  | .echo _ => true

/-- OUT as the plain byte sequence a terminal would show (R32). -/
def State.terminal (s : State) : List Byte := s.out.map OutEvent.byte

end Sys2Proof.Machine
end

