-- ==== Sys2Proof/Tests/Slice0.lean ====
section
/-! SUPPORT. Small tests: the well-formedness checks, decoding of words written out from 30_encoding.md R83, single steps
from the vectors of spec/95_test_vectors.md (its id in each name), and for each statement with hypotheses a concrete case
that meets them. -/

namespace Sys2Proof.Tests

open Sys2Proof Sys2Proof.Machine

/-! ### Well-formedness: an ill-formed term for each check -/

theorem test_wf_jmp_r7_refused : (Instr.jmp .r7).wf = false := by decide
theorem test_wf_trap_of_each_routine_refused : routineVectors.map (fun v => (Instr.trap v).wf) = List.replicate 6 false := by decide
theorem test_wf_jmp_r2 : (Instr.jmp .r2).wf = true := by decide
theorem test_wf_trap_x26 : (Instr.trap 0x26#8).wf = true := by decide

/-! ### Decoding: words written bit by bit from the formats of R83, ignored bits set to 1 in some -/

theorem test_decode_operate :
    [0b0001_010_000_0_11_001#16, 0b0001_000_000_1_11111#16, 0b0101_011_001_0_00_010#16, 0b0101_001_110_1_01111#16, 0b1001_011_010_000000#16].map decode =
      [.addReg .r2 .r0 .r1, .addImm .r0 .r0 31#5, .andReg .r3 .r1 .r2, .andImm .r1 .r6 15#5, .not .r3 .r2] := by decide

theorem test_decode_control :
    [0b0000_101_011111111#16, 0b1100_111_010_111111#16, 0b1100_000_111_000000#16, 0b0100_1_10000000000#16, 0b0100_0_11_010_111111#16].map decode =
      [.br 0b101#3 255#9, .jmp .r2, .ret, .jsr 1024#11, .jsrr .r2] := by decide

theorem test_decode_load_store :
    [0b0010_011_000000100#16, 0b1010_010_000000100#16, 0b0110_011_001_111111#16, 0b1110_000_111111111#16, 0b0011_011_000000100#16, 0b1011_010_000000100#16, 0b0111_011_001_100000#16].map decode =
      [.ld .r3 4#9, .ldi .r2 4#9, .ldr .r3 .r1 63#6, .lea .r0 511#9, .st .r3 4#9, .sti .r2 4#9, .str .r3 .r1 32#6] := by decide

theorem test_decode_trap :
    [0b1111_1111_00100000#16, 0b1111_0000_00100001#16, 0b1111_0000_00100010#16, 0b1111_0000_00100011#16, 0b1111_0000_00100100#16, 0b1111_0000_00100101#16, 0b1111_0000_00100110#16, 0b1111_0000_00011111#16, 0b1000_101010111100#16, 0b1101_111111111111#16].map decode =
      [.getc, .out, .puts, .inChar, .putsp, .halt, .trap 0x26#8, .trap 0x1F#8, .rti, .res] := by decide

theorem test_alias_words_R92 :
    [Instr.ret, .getc, .out, .puts, .inChar, .putsp, .halt, .br 0#3 0#9].map encode =
      [0xC1C0#16, 0xF020#16, 0xF021#16, 0xF022#16, 0xF023#16, 0xF024#16, 0xF025#16, 0x0000#16] := by decide

theorem test_encode_not_writes_ones_R91 : encode (.not .r3 .r2) = 0x96BF#16 := by decide

theorem test_decodeTableWord : decodeTableWord 16 0x1021 = some (.addImm .r0 .r0 1#5) ∧ decodeTableWord 24 0x1021 = none := by decide

theorem test_asm_R90 : [Instr.addImm .r0 .r1 5#5, .addImm .r0 .r0 31#5, .br 0b010#3 2#9, .trap 0x26#8].map asmText =
    ["ADD R0,R1,#5", "ADD R0,R0,#-1", "BRz #2", "TRAP x26"] := by decide

theorem test_sext_table : [sext 0x10#5, sext 0x0F#5, sext 0x20#6, sext 0x100#9, sext 0x3FF#11, sext 0x400#11] =
    [0xFFF0#16, 0x000F#16, 0xFFE0#16, 0xFF00#16, 0x03FF#16, 0xFC00#16] := by decide

/-! ### One step from the vectors of 95_test_vectors.md -/

/-- A small state: general registers, COND, memory and KBQ over the reset state. -/
def small (regs : List (Reg × Word)) (cond : BitVec 3) (mem : Memory) (kbq : List Byte) : State :=
  { regs.foldl (fun s p => s.setReg p.1 p.2) State.reset with cond := cond, mem := mem, kbq := kbq }

/-- The state after an answer, if there is one. -/
def after : Result → Option State
  | .next t => some t
  | .fault _ => none
  | .refused _ => none

/-- One step on a word placed at PC. -/
def run1 (s : State) (w : Nat) : Option State := after (step (s.withFetchWord 16 w))

/-- The reset state at another PC. -/
def atPc (a : Word) : State := State.reset.setPc a

/-- A state with a one-byte prompt. -/
def prompt3F (s : State) : State := { s with config := { Config.standard with inPrompt := [0x3F#8] } }

theorem test_O1_add_wraps : (run1 (small [(.r0, 0x7FFF#16), (.r1, 1#16)] 0 [] []) 0x1401).map (fun t => (t.reg .r2, t.cond, t.pc)) =
    some (0x8000#16, 0b100#3, 0x3001#16) := by decide

theorem test_O7_add_ignored_bits : (run1 (small [(.r0, 3#16), (.r1, 4#16)] 0 [] []) 0x1419).map (fun t => (t.reg .r2, t.cond)) =
    some (7#16, 0b001#3) := by decide

theorem test_O4_add_minus_one : (run1 (State.reset) 0x103F).map (fun t => (t.reg .r0, t.cond)) =
    some (0xFFFF#16, 0b100#3) := by decide

theorem test_O8_pc_wraps : (run1 (atPc 0xFFFF#16) 0x1021).map (fun t => (t.reg .r0, t.cond, t.pc)) =
    some (1#16, 0b001#3, 0#16) := by decide

theorem test_O9_and : (run1 (small [(.r1, 0xF0F0#16), (.r2, 0x3C3C#16)] 0 [] []) 0x5642).map (fun t => (t.reg .r3, t.cond)) =
    some (0x3030#16, 0b001#3) := by decide

theorem test_O10_and_sign_extends : (run1 (small [(.r1, 0x8001#16)] 0 [] []) 0x527F).map (fun t => (t.reg .r1, t.cond)) =
    some (0x8001#16, 0b100#3) := by decide

theorem test_O14_not : (run1 (small [(.r2, 0xFFFF#16)] 0 [] []) 0x96BF).map (fun t => (t.reg .r3, t.cond)) =
    some (0#16, 0b010#3) := by decide

theorem test_O17_not_in_place : (run1 (small [(.r1, 0x7FFF#16)] 0 [] []) 0x927F).map (fun t => (t.reg .r1, t.cond)) =
    some (0x8000#16, 0b100#3) := by decide

theorem test_B1_br_at_reset : (run1 (State.reset) 0x0E05).map (fun t => (t.pc)) =
    some (0x3001#16) := by decide

theorem test_B10_br_taken : (run1 (small [] 0b001#3 [] []) 0x0300).map (fun t => (t.pc, t.cond)) =
    some (0x2F01#16, 0b001#3) := by decide

theorem test_B13_jmp_ignored_bits : (run1 (small [(.r2, 0x4000#16)] 0 [] []) 0xCEBF).map (fun t => (t.pc, t.reg .r7)) =
    some (0x4000#16, 0#16) := by decide

theorem test_B14_ret : (run1 (small [(.r7, 0x3003#16)] 0 [] []) 0xC1C0).map (fun t => (t.pc, t.reg .r7)) =
    some (0x3003#16, 0x3003#16) := by decide

theorem test_B17_jsr : (run1 (State.reset) 0x4C00).map (fun t => (t.reg .r7, t.pc, t.cond)) =
    some (0x3001#16, 0x2C01#16, 0#3) := by decide

theorem test_B20_jsrr_r7 : (run1 (small [(.r7, 0x5000#16)] 0 [] []) 0x41C0).map (fun t => (t.reg .r7, t.pc)) =
    some (0x3001#16, 0x3001#16) := by decide

theorem test_B21_jsrr : (run1 (small [(.r2, 0x5000#16)] 0 [] []) 0x46BF).map (fun t => (t.reg .r7, t.pc)) =
    some (0x3001#16, 0x5000#16) := by decide

theorem test_L1_ld : (run1 (small [] 0 [(0x3005, 0xBEEF#16)] []) 0x2604).map (fun t => (t.reg .r3, t.cond)) =
    some (0xBEEF#16, 0b100#3) := by decide

theorem test_L13_ldi_polls : (run1 (small [] 0 [(0x3002, 0xFE00#16)] [0x61#8, 0x62#8]) 0xA201).map (fun t => (t.reg .r1, t.cond, t.peek 0xFE00#16, t.peek 0xFE02#16, t.kbq)) =
    some (0x8000#16, 0b100#3, 0x8000#16, 0x61#16, [0x62#8]) := by decide

theorem test_L14_ldi_poll_empty : (run1 (small [] 0 [(0x3002, 0xFE00#16), (0xFE00, 0x8000#16)] []) 0xA201).map (fun t => (t.reg .r1, t.cond, t.mem)) =
    some (0#16, 0b010#3, [(0x3000, 0xA201#16), (0x3002, 0xFE00#16)]) := by decide

theorem test_L6_ldr_wraps : (run1 (small [] 0 [(0xFFFF, 7#16)] []) 0x667F).map (fun t => (t.reg .r3, t.cond)) =
    some (7#16, 0b001#3) := by decide

theorem test_L8_ldr_dr_is_base : (run1 (small [(.r1, 0x4000#16)] 0 [(0x4000, 0x1234#16)] []) 0x6240).map (fun t => (t.reg .r1, t.cond)) =
    some (0x1234#16, 0b001#3) := by decide

theorem test_L11_lea_wraps : (run1 (atPc 0xFFFF#16) 0xE000).map (fun t => (t.reg .r0, t.cond, t.pc)) =
    some (0#16, 0b010#3, 0#16) := by decide

theorem test_T2_st_own_cell : (run1 (small [(.r3, 0xABCD#16)] 0 [] []) 0x37FF).map (fun t => (t.mem, t.pc)) =
    some ([(0x3000, 0xABCD#16)], 0x3001#16) := by decide

theorem test_T3_sti : (run1 (small [(.r2, 0x5555#16)] 0 [(0x3005, 0x4000#16)] []) 0xB404).map (fun t => (t.peek 0x4000#16, t.peek 0x3005#16)) =
    some (0x5555#16, 0x4000#16) := by decide

theorem test_T5_str_wraps : (run1 (small [(.r1, 0x10#16), (.r3, 0x2222#16)] 0b010#3 [] []) 0x7660).map (fun t => (t.peek 0xFFF0#16, t.cond)) =
    some (0x2222#16, 0b010#3) := by decide

theorem test_T7_st_to_status_is_plain :
    (run1 ((small [(.r1, 0x1234#16)] 0 [] [0x61#8]).setPc 0xFDFE#16) 0x3201).map (fun t => (t.peek 0xFE00#16, t.kbq)) =
    some (0x1234#16, [0x61#8]) := by decide

theorem test_X1_getc_holds : (run1 (small [(.r0, 0x9999#16), (.r7, 0x1111#16)] 0b100#3 [] []) 0xF020).map (fun t => (t.pc, t.reg .r0, t.reg .r7, t.run)) =
    some (0x3000#16, 0x9999#16, 0x1111#16, RunState.running) := by decide

theorem test_X3_getc_zero_extends : (run1 (small [] 0b001#3 [] [0xFF#8]) 0xFF20).map (fun t => (t.reg .r0, t.reg .r7, t.pc, t.cond, t.kbq)) =
    some (0xFF#16, 0x3001#16, 0x3001#16, 0b001#3, ([] : List Byte)) := by decide

theorem test_X5_out : (run1 (small [(.r0, 0x1241#16)] 0b010#3 [] []) 0xF021).map (fun t => (t.out, t.reg .r0, t.reg .r7, t.cond)) =
    some ([OutEvent.write 0x41#8], 0x1241#16, 0x3001#16, 0b010#3) := by decide

theorem test_X7_puts_low_bytes : (run1 (small [(.r0, 0x4000#16)] 0 [(0x4000, 0x141#16), (0x4001, 0x100#16)] []) 0xF022).map (fun t => (t.out, t.reg .r0)) =
    some ([OutEvent.write 0x41#8, .write 0#8], 0x4000#16) := by decide

theorem test_X8_puts_wraps : (run1 (small [(.r0, 0xFFFF#16)] 0 [(0, 0x42#16), (0xFFFF, 0x41#16)] []) 0xF022).map (fun t => (t.out, t.reg .r7)) =
    some ([OutEvent.write 0x41#8, .write 0x42#8], 0x3001#16) := by decide

theorem test_X9_putsp : (run1 (small [(.r0, 0x4000#16)] 0 [(0x4000, 0x4241#16), (0x4001, 0x43#16)] []) 0xF024).map (fun t => (t.out, t.pc)) =
    some ([OutEvent.write 0x41#8, .write 0x42#8, .write 0x43#8], 0x3001#16) := by decide

theorem test_X10_putsp_zero_low_byte : (run1 (small [(.r0, 0x4000#16)] 0 [(0x4000, 0x4100#16)] []) 0xF024).map (fun t => (t.out)) =
    some ([OutEvent.write 0#8, .write 0x41#8]) := by decide

theorem test_X11_in_holds_prompted : (run1 (prompt3F (small [(.r7, 0x1111#16)] 0 [] [])) 0xF023).map (fun t => (t.out, t.prompted, t.pc, t.reg .r7)) =
    some ([OutEvent.write 0x3F#8], true, 0x3000#16, 0x1111#16) := by decide

theorem test_X12_in_echoes : (run1 (prompt3F (small [] 0b100#3 [] [0x7A#8])) 0xF023).map (fun t => (t.out, t.reg .r0, t.reg .r7, t.pc, t.prompted, t.cond)) =
    some ([OutEvent.write 0x3F#8, .echo 0x7A#8], 0x7A#16, 0x3001#16, 0x3001#16, false, 0b100#3) := by decide

theorem test_X13_halt : (run1 (small [(.r0, 5#16)] 0b001#3 [] []) 0xF025).map (fun t => (t.reg .r7, t.pc, t.run, t.haltCausePort, t.out)) =
    some (0x3001#16, 0x3001#16, RunState.halted, 1#3, ([] : List OutEvent)) := by decide

theorem test_X14_unknown_vector : (run1 (small [(.r7, 0x1111#16)] 0 [] []) 0xF026).map (fun t => (t.run, t.haltCausePort, t.pc, t.reg .r7)) =
    some (RunState.halted, 5#3, 0x3000#16, 0x1111#16) := by decide

theorem test_E2_rti : (run1 (State.reset) 0x8ABC).map (fun t => (t.run, t.haltCausePort, t.pc)) =
    some (RunState.halted, 3#3, 0x3000#16) := by decide

theorem test_E4_res : (run1 (State.reset) 0xDFFF).map (fun t => (t.run, t.haltCausePort, t.pc)) =
    some (RunState.halted, 4#3, 0x3000#16) := by decide

theorem test_E6_stop_wins :
    (after (step (hostMove (.driveStop true) (State.reset.withFetchWord 16 0x8000)))).map (fun t => (t.haltCausePort, t.pc)) =
    some (2#3, 0x3000#16) := by decide

theorem test_E9_fetch_from_status_with_key :
    (after (step { atPc 0xFE00#16 with kbq := [0x61#8] })).map (fun t => (t.mem, t.kbq, t.haltCausePort, t.pc)) =
    some ([(0xFE00, 0x8000#16), (0xFE02, 0x61#16)], [], 3#3, 0xFE00#16) := by decide

theorem test_E10_fetch_from_status_without_key :
    (after (step { atPc 0xFE00#16 with mem := [(0xFE00, 0x1021#16)] })).map (fun t => (t.mem, t.pc, t.reg .r0)) =
    some ([], 0xFE01#16, 0#16) := by decide

theorem test_reset_runs_zero_as_br : (after (step State.reset)).map (fun t => (t.pc, t.mem)) = some (0x3001#16, []) := by decide

theorem test_withFetchWord_changes_only_the_cell : State.reset.withFetchWord 16 0x1021 = { State.reset with mem := [(0x3000, 0x1021#16)] } := by decide

theorem test_outcomes : [(small [] 0 [(0x3000, 0xF020#16)] []).outcome, (small [] 0 [(0x3000, 0xF020#16)] [0x61#8]).outcome,
    (small [] 0 [(0x3000, 0xF025#16)] []).outcome, (small [] 0 [(0x3000, 0xD000#16)] []).outcome,
    (State.reset.setStopReq true).outcome, (State.reset.haltWith .extStop).outcome] =
    [.held, .completed, .haltedByTrap, .fatalError, .stopped, .idle] := by decide

/-! ### Memory and the loader -/

theorem test_memory_canonical : Memory.write (Memory.write (Memory.write [] 5 1#16) 3 2#16) 5 0#16 = [(3, 2#16)] := by decide
theorem test_memory_order : Memory.write (Memory.write [] 5 1#16) 3 2#16 = [(3, 2#16), (5, 1#16)] := by decide
theorem test_memory_wf_refuses : Memory.wf [(5, 1#16), (3, 2#16)] = false ∧ Memory.wf [(3, 0#16)] = false ∧
    Memory.wf [(65536, 1#16)] = false := by decide
theorem test_load_big_endian : (parseImage [0x30#8, 0x00#8, 0x12#8, 0x34#8]).map (fun i => Memory.loadImages true [i] []) =
    some [(0x3000, 0x1234#16)] := by decide

/-! ### The hypotheses of the statements are met -/

theorem witness_DecodeEncodeRoundTrip : (Instr.str .r3 .r1 0b100000#6).wf = true := by decide

theorem witness_IgnoredBitsChangeNothing :
    (0x1401#16 &&& 0xF020#16 = 0x1000#16 ∧ 0x0018#16 &&& 0xFFE7#16 = 0#16) ∧
    (0x96BF#16 &&& 0xF000#16 = 0x9000#16 ∧ 0x003F#16 &&& 0xFFC0#16 = 0#16) ∧
    (0xC1C0#16 &&& 0xF000#16 = 0xC000#16 ∧ 0x0E3F#16 &&& 0xF1C0#16 = 0#16) ∧
    (0x4080#16 &&& 0xF800#16 = 0x4000#16 ∧ 0x063F#16 &&& 0xF9C0#16 = 0#16) ∧
    (0xF020#16 &&& 0xF000#16 = 0xF000#16 ∧ 0x0F00#16 &&& 0xF0FF#16 = 0#16) ∧
    (0x8000#16 &&& 0xF000#16 = 0x8000#16 ∧ 0x0FFF#16 &&& 0xF000#16 = 0#16) := by decide

theorem witness_IllegalWordsAreThreeClasses : State.reset.run = .running ∧ State.reset.haltCause = .none := by decide

theorem witness_SignExtensionWidens : (5 = 5 ∨ 5 = 6 ∨ 5 = 9 ∨ 5 = 11) ∧ (4 < 5) ∧ (5 ≤ 15 ∧ 15 < 16) := by decide

/-- A word for each encoding clause, in the order of the statements. -/
theorem witness_encoding_clauses :
    0x1419#16 &&& 0xF020#16 = 0x1000#16 ∧ 0x103F#16 &&& 0xF020#16 = 0x1020#16 ∧ 0x5642#16 &&& 0xF020#16 = 0x5000#16 ∧
    0x527F#16 &&& 0xF020#16 = 0x5020#16 ∧ 0x9680#16 &&& 0xF000#16 = 0x9000#16 ∧ 0x0402#16 &&& 0xF000#16 = 0x0000#16 ∧
    (0xCEBF#16 &&& 0xF000#16 = 0xC000#16 ∧ regField8 0xCEBF#16 ≠ .r7) ∧ 0xC1C0#16 &&& 0xF1C0#16 = 0xC1C0#16 ∧
    0x4FFF#16 &&& 0xF800#16 = 0x4800#16 ∧ 0x46BF#16 &&& 0xF800#16 = 0x4000#16 ∧ 0x2604#16 &&& 0xF000#16 = 0x2000#16 ∧
    0xA404#16 &&& 0xF000#16 = 0xA000#16 ∧ 0x667F#16 &&& 0xF000#16 = 0x6000#16 ∧ 0xE100#16 &&& 0xF000#16 = 0xE000#16 ∧
    0x3604#16 &&& 0xF000#16 = 0x3000#16 ∧ 0xB404#16 &&& 0xF000#16 = 0xB000#16 ∧ 0x7660#16 &&& 0xF000#16 = 0x7000#16 ∧
    0xFF20#16 &&& 0xF0FF#16 = 0xF020#16 ∧ 0xF021#16 &&& 0xF0FF#16 = 0xF021#16 ∧ 0xF022#16 &&& 0xF0FF#16 = 0xF022#16 ∧
    0xF023#16 &&& 0xF0FF#16 = 0xF023#16 ∧ 0xF024#16 &&& 0xF0FF#16 = 0xF024#16 ∧ 0xF025#16 &&& 0xF0FF#16 = 0xF025#16 ∧
    (0xF026#16 &&& 0xF000#16 = 0xF000#16 ∧ 0x25 < (0xF026#16).toNat % 256) ∧
    0x8ABC#16 &&& 0xF000#16 = 0x8000#16 ∧ 0xDFFF#16 &&& 0xF000#16 = 0xD000#16 := by decide

theorem witness_RegisterAndImmediateModesAgree :
    (small [(.r2, 5#16)] 0 [] []).reg .r2 = BitVec.ofInt 16 (5#5).toInt ∧ (.r2 : Reg) ≠ .r1 := by decide

theorem witness_CondWrittenBySevenOpcodes :
    exec (.ld .r3 4#9) State.reset = .next ((State.reset.setPc 0x3001#16).setCond 0b010#3) ∧ (Instr.ld .r3 4#9).dest? = some .r3 ∧
    exec .getc State.reset = .next State.reset ∧ Instr.getc.dest? = none ∧ (∀ mask off9, Instr.getc ≠ .br mask off9) ∧
    ¬(State.reset.haltWith .extStop).fetches ∧ step (State.reset.haltWith .extStop) = .next (State.reset.haltWith .extStop) :=
  ⟨rfl, rfl, rfl, rfl, fun _ _ h => (by cases h), fun h => (by cases h.1), rfl⟩

theorem witness_BranchTakenByMaskAndFlags :
    (∃ k, (0b010#3).getLsbD k = true ∧ (small [] 0b010#3 [] []).cond.getLsbD k = true) ∧
    (∀ k, (0b111#3).getLsbD k = true → State.reset.cond.getLsbD k = false) :=
  ⟨⟨1, by decide⟩, fun k _ => by simp [State.reset, State.resetWith, ResetArgs.standard]⟩

theorem witness_CallThenReturn : (.r2 : Reg) ≠ .r7 ∧ (small [(.r7, 0x3001#16)] 0 [] []).reg .r7 = 0x3001#16 := by decide

theorem witness_loads_from_plain_cells :
    State.reset.pcPlus (0x1FF#9).toInt ≠ State.reset.config.kbsrAddr ∧
    State.reset.peek (State.reset.pcPlus (4#9).toInt) ≠ State.reset.config.kbsrAddr ∧
    State.reset.basePlus .r1 (0x3F#6).toInt ≠ State.reset.config.kbsrAddr := by decide

/-- The state after ST R3,#4 (S5), to load from with LD R4,#3. -/
def stored : State := { small [(.r3, 0xABCD#16)] 0 [(0x3005, 0xABCD#16)] [] with pc := 0x3001#16 }

theorem witness_StoreThenLoadReadsBack :
    stored.config = (small [(.r3, 0xABCD#16)] 0 [] []).config ∧
    (small [(.r3, 0xABCD#16)] 0 [] []).pcPlus (4#9).toInt = stored.pcPlus (3#9).toInt ∧
    (small [(.r3, 0xABCD#16)] 0 [] []).pcPlus (4#9).toInt ≠ Config.standard.kbsrAddr ∧
    exec (.st .r3 4#9) (small [(.r3, 0xABCD#16)] 0 [] []) = .next stored ∧ MemKeptBut [] stored stored :=
  ⟨rfl, by decide, by decide, rfl, fun _ _ => rfl⟩

theorem witness_StoreThenLoadReadsBack_base :
    (small [(.r1, 0x4000#16)] 0 [] []).basePlus .r1 (1#6).toInt = (small [(.r2, 0x4002#16)] 0 [] []).basePlus .r2 (0x3F#6).toInt ∧
    (small [(.r1, 0x4000#16)] 0 [] []).basePlus .r1 (1#6).toInt ≠ Config.standard.kbsrAddr := by decide

theorem witness_StoreThenLoadReadsBack_indirect :
    stored.pcPlus (3#9).toInt ≠ stored.config.kbsrAddr ∧
    ((small [] 0 [(0x3005, 0xABCD#16)] []).memRead ((small [] 0 [(0x3005, 0xABCD#16)] []).pcPlus (4#9).toInt)).1 =
      stored.peek (stored.pcPlus (3#9).toInt) ∧
    stored.peek (stored.pcPlus (3#9).toInt) ≠ Config.standard.kbsrAddr := by decide

theorem witness_keyboard_clauses :
    Config.standard.wf ∧ (0xFE02#16 : Word) ≠ State.reset.config.kbsrAddr ∧ State.reset.kbq = [] ∧
    (small [] 0 [] [0x61#8]).kbq = [0x61#8] ∧ (small [] 0 [] [0x61#8, 0x62#8]).kbq = 0x61#8 :: 0x62#8 :: [] := by decide

theorem witness_FetchFromStatusCellPolls :
    ((atPc 0xFE00#16).run = .running ∧ (atPc 0xFE00#16).stopReq = false) ∧ (atPc 0xFE00#16).pc = (atPc 0xFE00#16).config.kbsrAddr ∧
    (atPc 0xFE00#16).kbq = [] ∧ ((atPc 0xFE00#16).setKbq [0x61#8]).kbq = [0x61#8] := by decide

theorem witness_StoreSeenByNextFetch :
    exec (.st .r1 0#9) (small [(.r1, 0x1021#16)] 0 [] []) =
      .next ({ small [(.r1, 0x1021#16)] 0 [(0x3001, 0x1021#16)] [] with pc := 0x3001#16 }) ∧
    (small [(.r1, 0x1021#16)] 0 [] []).pcRelative 0#9 = 0x3001#16 := ⟨rfl, by decide⟩

theorem witness_StoreSeenByNextFetch_sti_str :
    (exec (.sti .r1 1#9) (small [(.r1, 0x1021#16)] 0 [(0x3002, 0x3001#16)] []) =
      .next ({ small [(.r1, 0x1021#16)] 0 [(0x3001, 0x1021#16), (0x3002, 0x3001#16)] [] with pc := 0x3001#16 }) ∧
     ((small [(.r1, 0x1021#16)] 0 [(0x3002, 0x3001#16)] []).indirect 1#9).1 = 0x3001#16) ∧
    exec (.str .r1 .r2 1#6) (small [(.r1, 0x1021#16), (.r2, 0x3000#16)] 0 [] []) =
      .next ({ small [(.r1, 0x1021#16), (.r2, 0x3000#16)] 0 [(0x3001, 0x1021#16)] [] with pc := 0x3001#16 }) ∧
    (small [(.r1, 0x1021#16), (.r2, 0x3000#16)] 0 [] []).baseOffset .r2 1#6 = 0x3001#16 := ⟨⟨rfl, by decide⟩, rfl, by decide⟩

theorem witness_ImageIsLaidDownAtOrigin :
    (Image.mk 0xFFFD#16 [1#16, 2#16]).origin.toNat + (Image.mk 0xFFFD#16 [1#16, 2#16]).words.length ≤ 0xFFFF ∧
    (Image.mk 0xFFFD#16 [1#16, 2#16]).words[1]? = some 2#16 := by decide

/-- R0 at the string "HI" of S10, and at the packed string of X9. -/
def hiState : State := small [(.r0, 0x4000#16)] 0 [(0x4000, 0x48#16), (0x4001, 0x49#16)] []

theorem witness_PutsRunsTheLoop :
    ∃ m, StringScan (fun x => [BitVec.ofNat 8 x.toNat]) 2 (hiState.reg .r0) (hiState.setReg .r7 (hiState.pc + 1#16)) m :=
  ⟨_, .cell (by decide) (.cell (by decide) (.stop (by decide)))⟩

/-- A string whose first cell is the status cell, with a key pending: the loop passes it. -/
theorem witness_PutsRunsTheLoop_over_status_cell :
    ∃ m, StringScan (fun x => [BitVec.ofNat 8 x.toNat]) 1 0xFE00#16 (small [] 0 [] [0x61#8]) m :=
  ⟨_, .cell (by decide) (.stop (by decide))⟩

theorem witness_PutspRunsTheLoop :
    ∃ m, StringScan (fun x => if x.toNat / 256 = 0 then [BitVec.ofNat 8 x.toNat]
      else [BitVec.ofNat 8 x.toNat, BitVec.ofNat 8 (x.toNat / 256)]) 2 (hiState.reg .r0)
      (hiState.setReg .r7 (hiState.pc + 1#16)) m :=
  ⟨_, .cell (by decide) (.cell (by decide) (.stop (by decide)))⟩

theorem witness_StringsAreWrittenInOrder : HoldsString hiState (hiState.reg .r0) [0x48#16, 0x49#16] := by
  simp only [HoldsString]; decide

theorem witness_UnknownVectorIsFatal : (0x1F#8).toNat < 0x20 ∧ 0x25 < (0x26#8).toNat := by decide

theorem witness_TrapGoesOnOrLeavesRegisters :
    0xF020#16 &&& 0xF000#16 = 0xF000#16 ∧ exec (decode 0xF020#16) State.reset = .next State.reset := ⟨by decide, rfl⟩

theorem witness_FatalErrorLeavesOffendingWord :
    (State.reset.withFetchWord 16 0x8000).current = .rti ∧ (State.reset.withFetchWord 16 0xD000).current = .res ∧
    (State.reset.withFetchWord 16 0xF026).current = .trap 0x26#8 ∧ (State.reset.withFetchWord 16 0xF026).run = .running ∧
    (State.reset.withFetchWord 16 0xF026).stopReq = false ∧ State.reset.pc ≠ State.reset.config.kbsrAddr := by decide

theorem witness_StepRunsDecodedInstruction :
    (State.reset.run = .running ∧ State.reset.stopReq = false) ∧ State.reset.pc ≠ State.reset.config.kbsrAddr ∧
    decode (State.reset.peek State.reset.pc) = .br 0#3 0#9 := by decide

theorem witness_HaltedStepsChangeNothing : (State.reset.haltWith .haltTrap).run = .halted := by decide

theorem witness_StopRequestWins : (State.reset.setStopReq true).run = .running ∧ (State.reset.setStopReq true).stopReq = true := by
  decide

theorem witness_HoldIsLiftedByCharacterOrStop :
    (State.reset.withFetchWord 16 0xF023).run = .running ∧ (State.reset.withFetchWord 16 0xF023).stopReq = false ∧
    (State.reset.withFetchWord 16 0xF023).current = .inChar ∧ (State.reset.withFetchWord 16 0xF023).current.waits = true ∧
    (State.reset.withFetchWord 16 0xF020).current = .getc ∧ (State.reset.withFetchWord 16 0xF023).fetch.2.kbq = [] := by decide

theorem witness_RegistersReadAndWritten :
    exec (.jsr 0#11) State.reset = .next (State.reset.link.setPc 0x3001#16) ∧ (.r7 : Reg) ∉ (Instr.jsr 0#11).regReads :=
  ⟨rfl, by decide⟩

theorem witness_steps_answer : step State.reset = .next (State.reset.setPc 0x3001#16) := rfl

theorem witness_ExactlyOneFlagForEver :
    OneFlag (small [] 0b001#3 [] []).cond ∧ step (small [] 0b001#3 [] []) = .next ((small [] 0b001#3 [] []).setPc 0x3001#16) ∧
    (Instr.lea .r0 3#9).dest? = some .r0 := ⟨.inr (.inr rfl), rfl, rfl⟩

theorem witness_ResetMeetsInvariant : Config.standard.wf ∧ ResetArgs.standard.memInit.wf = true := by decide

/-- A machine that waits in IN meets the invariant, PROMPTED set. -/
theorem witness_StepKeepsInvariant : ((State.reset.withFetchWord 16 0xF023).setPrompted true).Inv where
  memForm := by decide
  devices := by decide
  cause := by decide
  waitingIn := by decide

theorem witness_ReachableStatesMeetInvariant :
    Reachable Config.standard ResetArgs.standard ((hostMove (.appendKey 0x61#8) State.reset).setPc 0x3001#16) :=
  .core (.host (.appendKey 0x61#8) .start) rfl

theorem witness_ReachableStatesMeetInvariant_halted :
    Reachable Config.standard ResetArgs.standard ((State.reset.setStopReq true).haltWith .extStop) ∧
    ((State.reset.setStopReq true).haltWith .extStop).run = .halted :=
  ⟨.core (.host (.driveStop true) .start) rfl, rfl⟩

/-! ### The stuck reason is reached -/

theorem read_full (l : List Nat) (a : Nat) (h : a ∈ l) : Memory.read (l.map fun b => (b, 1#16)) a = 1#16 := by
  induction l with
  | nil => cases h
  | cons b rest ih =>
    simp only [List.map_cons, Memory.read]
    split
    · rfl
    · next hab => exact ih (by simpa [hab] using h)

theorem full_memory (n : Nat) : ∃ m : Memory, ∀ a, a < n → m.read a = 1#16 :=
  ⟨_, fun a h => read_full (List.range n) a (List.mem_range.mpr h)⟩

/-- PUTS from the status cell, one character pending, over a memory whose cells are all 1: no next state (R216). -/
theorem test_puts_hangs (s : State) (hk : s.kbq = [0x61#8]) (hc : s.config = Config.standard)
    (h0 : s.reg .r0 = 0xFE00#16) (hm : ∀ x, s.peek x = 1#16) : exec .puts s = .fault .stuckStringScan := by
  have hpoll : ∀ x, s.link.pollKeyboard.peek x ≠ 0x0000#16 := by
    intro x
    rw [peek_pollKeyboard_cons (s := s.link) hk]
    split
    · decide
    · split
      · decide
      · rw [show s.link.peek x = 1#16 from hm x]; decide
  have hst : s.link.config.kbsrAddr = 0xFE00#16 := congrArg Config.kbsrAddr hc
  have hscan : ∀ n, n < 65536 → scanString putsBytes (n + 1) (s.reg .r0) s.link = none := by
    intro n hn
    unfold scanString
    rw [h0, ← hst, memRead_status, if_neg (hpoll _), scanString_eq_none]
    intro k hk'
    refine ⟨fun he => ?_, by simpa using hpoll _⟩
    rw [emit_config, pollKeyboard_config, hst] at he
    have := congrArg BitVec.toNat he
    simp only [BitVec.toNat_add, BitVec.toNat_ofNat] at this
    omega
  rcases putString_cases putsBytes s with ⟨t, h, -⟩ | ⟨-, h⟩
  · have := hscan 65535 (by omega)
    rw [show 65535 + 1 = scanLimit from rfl, h] at this
    cases this
  · exact h

theorem witness_test_puts_hangs : ∃ s : State, s.kbq = [0x61#8] ∧ s.config = Config.standard ∧
    s.reg .r0 = 0xFE00#16 ∧ ∀ x, s.peek x = 1#16 := by
  obtain ⟨m, hm⟩ := full_memory 65536
  exact ⟨small [(.r0, 0xFE00#16)] 0 m [0x61#8], rfl, rfl, rfl, fun x => hm _ x.isLt⟩

end Sys2Proof.Tests
end

/-! ### Widening a field or a byte (00_scope.md R11) -/

namespace Sys2Proof.Machine

/-- The shape of `sext` bit by bit: the field below its width, its top bit from there up to bit 15. -/
theorem getLsbD_sext {n : Nat} (f : BitVec n) (k : Nat) :
    (sext f).getLsbD k = (decide (k < 16) && if k < n then f.getLsbD k else f.getLsbD (n - 1)) := by
  rw [← BitVec.msb_eq_getLsbD_last]
  exact BitVec.getLsbD_signExtend f

theorem getLsbD_sext_low {n k : Nat} (f : BitVec n) (hn : n ≤ 16) (hk : k < n) :
    (sext f).getLsbD k = f.getLsbD k := by
  have hk16 : k < 16 := by omega
  rw [getLsbD_sext, if_pos hk, decide_eq_true hk16, Bool.true_and]

theorem getLsbD_sext_high {n k : Nat} (f : BitVec n) (hn : n ≤ k) (hk : k < 16) :
    (sext f).getLsbD k = f.getLsbD (n - 1) := by
  have hkn : ¬k < n := by omega
  rw [getLsbD_sext, if_neg hkn, decide_eq_true hk, Bool.true_and]

/-- A field that fits a word keeps its signed value. -/
theorem toInt_sext {n : Nat} (f : BitVec n) (hn : n ≤ 16) : (sext f).toInt = f.toInt :=
  BitVec.toInt_signExtend_of_le hn

theorem toInt_sext_eq_ite {n : Nat} (f : BitVec n) (hn : n ≤ 16) :
    (sext f).toInt = if f.getLsbD (n - 1) then (f.toNat : Int) - 2 ^ n else (f.toNat : Int) := by
  rw [toInt_sext f hn, BitVec.toInt_eq_msb_cond, BitVec.msb_eq_getLsbD_last]
  push_cast
  rfl

theorem getLsbD_zext8_low {k : Nat} (b : Byte) (hk : k < 8) : (zext8 b).getLsbD k = b.getLsbD k := by
  have hk16 : k < 16 := by omega
  simp [zext8, hk16]

theorem getLsbD_zext8_high {k : Nat} (b : Byte) (hk : 8 ≤ k) : (zext8 b).getLsbD k = false := by
  simp [zext8, BitVec.getLsbD_of_ge b k hk]

/-- Settles O7: each of the four widths fits a word, and the clauses hold for every width that does. -/
theorem signExtensionWidens : Obligations.SignExtensionWidens := by
  unfold Obligations.SignExtensionWidens
  constructor
  · intro n x hwidth
    have hn : n ≤ 16 := by omega
    exact ⟨fun _ hk => getLsbD_sext_low x hn hk, fun _ hnk hk => getLsbD_sext_high x hnk hk, toInt_sext_eq_ite x hn⟩
  · intro b
    exact ⟨fun _ hk => getLsbD_zext8_low b hk, fun _ hk => getLsbD_zext8_high b hk⟩

end Sys2Proof.Machine

/-! ### COND: seven writers, one reader (10_state.md R26) -/

namespace Sys2Proof.Machine

/-- A result with other flags in its next state; a fault or a refusal has no flags. -/
def withCond (c : BitVec 3) : Result → Result
  | .next t => .next (t.setCond c)
  | .fault r => .fault r
  | .refused r => .refused r

/-- A handler that neither reads nor writes COND: from other flags it does the same and leaves those flags. -/
def IgnoresCond (f : State → Result) : Prop := ∀ s c, f (s.setCond c) = withCond c (f s)

theorem IgnoresCond.next_setCond {f : State → Result} (hf : IgnoresCond f) {s t : State} (h : f s = .next t)
    (c : BitVec 3) : f (s.setCond c) = .next (t.setCond c) := by
  rw [hf s c, h]; rfl

/-- Started from its own flags, such a handler answers a state with those flags. -/
theorem IgnoresCond.cond_eq {f : State → Result} (hf : IgnoresCond f) {s t : State} (h : f s = .next t) :
    t.cond = s.cond := by
  have hself : f s = .next (t.setCond s.cond) := hf.next_setCond h s.cond
  have ht : t = t.setCond s.cond := by simpa [h] using hself
  rw [ht, setCond_cond]

/-! Reads and scans do not depend on COND. -/

theorem pollKeyboard_setCond (s : State) (c : BitVec 3) : (s.setCond c).pollKeyboard = s.pollKeyboard.setCond c := by
  unfold State.pollKeyboard
  rw [setCond_kbq]
  split <;> rfl

theorem memRead_setCond (s : State) (c : BitVec 3) (a : Word) :
    (s.setCond c).memRead a = ((s.memRead a).1, (s.memRead a).2.setCond c) := by
  unfold State.memRead
  rw [setCond_config, pollKeyboard_setCond]
  split <;> rfl

theorem indirect_setCond (s : State) (c : BitVec 3) (off9 : BitVec 9) :
    (s.setCond c).indirect off9 = ((s.indirect off9).1, (s.indirect off9).2.setCond c) :=
  memRead_setCond s c (s.pcRelative off9)

theorem scanString_setCond (bytesOf : Word → List Byte) (fuel : Nat) (a : Word) (s : State) (c : BitVec 3) :
    scanString bytesOf fuel a (s.setCond c) = (scanString bytesOf fuel a s).map (·.setCond c) := by
  induction fuel generalizing a s with
  | zero => rfl
  | succ fuel ih =>
    unfold scanString
    rw [memRead_setCond]
    split
    · rfl
    · exact ih (a + 1#16) ((s.memRead a).2.emit (writes (bytesOf (s.memRead a).1)))

/-! The handlers that branch or read memory, all but BR. -/

theorem ignoresCond_putString (bytesOf : Word → List Byte) : IgnoresCond (putString bytesOf) := by
  intro s c
  have hscan := scanString_setCond bytesOf scanLimit (s.link.reg .r0) s.link c
  change scanString bytesOf scanLimit ((s.setCond c).link.reg .r0) (s.setCond c).link = _ at hscan
  unfold putString
  rw [hscan]
  cases scanString bytesOf scanLimit (s.link.reg .r0) s.link <;> rfl

theorem ignoresCond_execGetc : IgnoresCond execGetc := by
  intro s c
  unfold execGetc
  rw [setCond_kbq]
  cases s.kbq <;> rfl

theorem prompt_setCond (s : State) (c : BitVec 3) : (s.setCond c).prompt = s.prompt.setCond c := by
  unfold State.prompt
  rw [setCond_prompted]
  split <;> rfl

theorem ignoresCond_execIn : IgnoresCond execIn := by
  intro s c
  unfold execIn
  rw [prompt_setCond, setCond_kbq]
  cases s.prompt.kbq <;> rfl

theorem ignoresCond_execSti (sr : Reg) (off9 : BitVec 9) : IgnoresCond (execSti sr off9) := by
  intro s c
  unfold execSti
  rw [indirect_setCond]
  rfl

theorem ignoresCond_execTrap (vec : BitVec 8) : IgnoresCond (execTrap vec) := by
  intro s c
  unfold execTrap
  split
  · exact ignoresCond_execGetc s c
  · rfl
  · exact ignoresCond_putString _ s c
  · exact ignoresCond_execIn s c
  · exact ignoresCond_putString _ s c
  · rfl
  · rfl

/-- Every instruction but the seven writers and BR ignores COND. -/
theorem ignoresCond_exec {i : Instr} (hdest : i.dest? = none) (hbr : ∀ mask off9, i ≠ .br mask off9) :
    IgnoresCond (exec i) := by
  cases i with
  | addReg | addImm | andReg | andImm | not | ld | ldi | ldr | lea => cases hdest
  | br mask off9 => exact absurd rfl (hbr mask off9)
  | ret | jmp | jsr | jsrr | st | str | out | halt | rti | res => exact fun _ _ => rfl
  | sti sr off9 => exact ignoresCond_execSti sr off9
  | puts | putsp => exact ignoresCond_putString _
  | getc => exact ignoresCond_execGetc
  | inChar => exact ignoresCond_execIn
  | trap vec => exact ignoresCond_execTrap vec

/-- BR reads COND, and leaves it. -/
theorem execBr_cond {mask : BitVec 3} {off9 : BitVec 9} {s t : State} (h : execBr mask off9 s = .next t) :
    t.cond = s.cond := by
  unfold execBr at h
  split at h <;> cases h <;> rfl

theorem exec_cond_of_no_dest {i : Instr} {s t : State} (hdest : i.dest? = none) (h : exec i s = .next t) :
    t.cond = s.cond := by
  by_cases hbr : ∃ mask off9, i = .br mask off9
  · obtain ⟨mask, off9, rfl⟩ := hbr
    exact execBr_cond h
  · exact (ignoresCond_exec hdest fun mask off9 he => hbr ⟨mask, off9, he⟩).cond_eq h

/-! The seven writers: `R[DR] <- v; setcc(v)` comes last, so the flags before it are lost (40_instruction_cycle.md R118). -/

theorem exec_of_dest {i : Instr} {dr : Reg} (hdest : i.dest? = some dr) (s : State) :
    ∃ (m : State) (v : Word), exec i s = complete (m.writeDest dr v) := by
  cases i with
  | addReg | addImm | andReg | andImm | not | ld | ldi | ldr | lea => cases hdest; exact ⟨_, _, rfl⟩
  | br | ret | jmp | jsr | jsrr | st | sti | str => cases hdest
  | getc | out | puts | inChar | putsp | halt | trap | rti | res => cases hdest

theorem loadFrom_setCond (dr : Reg) (ea : Word) (s : State) (c : BitVec 3) :
    loadFrom dr ea (s.setCond c) = loadFrom dr ea s := by
  unfold loadFrom
  rw [memRead_setCond]
  rfl

theorem execLdi_setCond (dr : Reg) (off9 : BitVec 9) (s : State) (c : BitVec 3) :
    execLdi dr off9 (s.setCond c) = execLdi dr off9 s := by
  unfold execLdi
  rw [indirect_setCond]
  exact loadFrom_setCond dr _ _ c

theorem exec_setCond_of_dest {i : Instr} {dr : Reg} (hdest : i.dest? = some dr) (s : State) (c : BitVec 3) :
    exec i (s.setCond c) = exec i s := by
  cases i with
  | addReg | addImm | andReg | andImm | not | lea => rfl
  | ld | ldr => exact loadFrom_setCond _ _ s c
  | ldi dr off9 => exact execLdi_setCond dr off9 s c
  | br | ret | jmp | jsr | jsrr | st | sti | str => cases hdest
  | getc | out | puts | inChar | putsp | halt | trap | rti | res => cases hdest

theorem flagsOf_writeDest (s : State) (dr : Reg) (v : Word) :
    FlagsOf ((s.writeDest dr v).reg dr) (s.writeDest dr v).cond := by
  simpa [State.writeDest, State.setcc] using flagsOf_condOf v

theorem exec_flags_of_dest {i : Instr} {dr : Reg} {s t : State} (hdest : i.dest? = some dr) (h : exec i s = .next t) :
    FlagsOf (t.reg dr) t.cond := by
  obtain ⟨m, v, hexec⟩ := exec_of_dest hdest s
  rw [hexec] at h
  cases h
  exact flagsOf_writeDest m dr v

/-! The two kinds together. -/

/-- From any COND an instruction but BR ends in the same state, up to the flags, which are its own where it writes them. -/
theorem exec_setCond {i : Instr} {s t : State} (hbr : ∀ mask off9, i ≠ .br mask off9) (h : exec i s = .next t)
    (c : BitVec 3) : ∃ c', exec i (s.setCond c) = .next (t.setCond c') ∧
      (∀ dr, i.dest? = some dr → c' = t.cond) ∧ (i.dest? = none → c' = c) := by
  cases hdest : i.dest? with
  | none => exact ⟨c, (ignoresCond_exec hdest hbr).next_setCond h c, nofun, fun _ => rfl⟩
  | some dr => exact ⟨t.cond, (exec_setCond_of_dest hdest s c).trans h, fun _ _ => rfl, nofun⟩

/-- A step that does not fetch leaves COND: it does nothing, or enters Halted. -/
theorem step_cond_of_not_fetches {s t : State} (hs : ¬s.fetches) (h : step s = .next t) : t.cond = s.cond := by
  rcases step_cases s with ⟨-, hstep⟩ | ⟨-, -, hstep⟩ | ⟨hf, -⟩
  · cases hstep.symm.trans h; rfl
  · cases hstep.symm.trans h; rfl
  · exact absurd hf hs

/-- Settles O14: the seven writers end in `writeDest`, BR only moves PC, and every other handler commutes with a change
of COND, which says at once that it reads none and that it leaves it. -/
theorem condWrittenBySevenOpcodes : Obligations.CondWrittenBySevenOpcodes := by
  unfold Obligations.CondWrittenBySevenOpcodes
  refine ⟨fun i s t h => ⟨fun _ hdest => exec_flags_of_dest hdest h, fun hdest => exec_cond_of_no_dest hdest h⟩, ?_,
    fun _ _ => step_cond_of_not_fetches⟩
  intro i s t c hbr h
  obtain ⟨c', hexec, hwriter, hother⟩ := exec_setCond hbr h c
  exact ⟨t.setCond c', hexec, hwriter, hother, fun _ _ => rfl, rfl, fun _ _ => rfl, ⟨rfl, rfl, rfl, rfl, rfl⟩, ⟨rfl, rfl⟩⟩

end Sys2Proof.Machine

/-! ### A read of the keyboard status cell (20_memory.md R52) -/

namespace Sys2Proof.Machine

theorem toNat_zext8 (b : Byte) : (zext8 b).toNat = b.toNat :=
  BitVec.toNat_setWidth_of_le (by decide)

theorem controlKept_pollKeyboard (s : State) : ControlKept s s.pollKeyboard where
  run := pollKeyboard_run s
  haltCause := pollKeyboard_haltCause s
  prompted := pollKeyboard_prompted s
  stopReq := pollKeyboard_stopReq s
  config := pollKeyboard_config s

/-! No character pending: the status cell reads 0x0000, the data cell is not touched. -/

theorem peek_status_pollKeyboard_nil {s : State} (h : s.kbq = []) :
    s.pollKeyboard.peek s.config.kbsrAddr = 0x0000#16 := by
  rw [peek_pollKeyboard_nil h, if_pos rfl]

theorem memRead_status_nil {s : State} (h : s.kbq = []) :
    s.memRead s.config.kbsrAddr = (0x0000#16, s.pollKeyboard) := by
  rw [memRead_status, peek_status_pollKeyboard_nil h]

theorem memKeptBut_pollKeyboard_nil {s : State} (h : s.kbq = []) :
    MemKeptBut [s.config.kbsrAddr] s s.pollKeyboard := by
  intro a ha
  rw [peek_pollKeyboard_nil h, if_neg (List.ne_of_not_mem_cons ha)]

theorem portsKept_pollKeyboard_nil {s : State} (h : s.kbq = []) : PortsKept s s.pollKeyboard where
  kbq := by rw [pollKeyboard_kbq, h, List.tail_nil]
  out := pollKeyboard_out s

/-! A character pending: the data cell is written after the status cell, so the status reads 0x8000 only where the two
addresses differ. -/

theorem peek_status_pollKeyboard_cons {s : State} {c : Byte} {q : List Byte} (h : s.kbq = c :: q)
    (hwf : s.config.wf) : s.pollKeyboard.peek s.config.kbsrAddr = 0x8000#16 := by
  rw [peek_pollKeyboard_cons h, if_neg hwf, if_pos rfl]

theorem memRead_status_cons {s : State} {c : Byte} {q : List Byte} (h : s.kbq = c :: q) (hwf : s.config.wf) :
    s.memRead s.config.kbsrAddr = (0x8000#16, s.pollKeyboard) := by
  rw [memRead_status, peek_status_pollKeyboard_cons h hwf]

theorem peek_data_pollKeyboard_cons {s : State} {c : Byte} {q : List Byte} (h : s.kbq = c :: q) :
    s.pollKeyboard.peek s.config.kbdrAddr = zext8 c := by
  rw [peek_pollKeyboard_cons h, if_pos rfl]

theorem memKeptBut_pollKeyboard (s : State) :
    MemKeptBut [s.config.kbsrAddr, s.config.kbdrAddr] s s.pollKeyboard := by
  intro a ha
  obtain ⟨hstatus, hdata⟩ : a ≠ s.config.kbsrAddr ∧ a ≠ s.config.kbdrAddr := by simpa using ha
  exact peek_pollKeyboard_other s hstatus hdata

/-- Settles O28: the state left is that of the poll, whose cells and frame the lemmas above give in each case of KBQ. -/
theorem memReadPollsKeyboard : Obligations.MemReadPollsKeyboard := by
  unfold Obligations.MemReadPollsKeyboard
  intro s
  refine ⟨fun _ => memRead_plain, fun hnone => ?_, fun c q hpending hwf => ?_⟩
  · exact ⟨s.pollKeyboard, memRead_status_nil hnone, peek_status_pollKeyboard_nil hnone,
      memKeptBut_pollKeyboard_nil hnone, pollKeyboard_regs s, pollKeyboard_pc s, pollKeyboard_cond s,
      controlKept_pollKeyboard s, portsKept_pollKeyboard_nil hnone⟩
  · have hdata : (s.pollKeyboard.peek s.config.kbdrAddr).toNat = c.toNat := by
      rw [peek_data_pollKeyboard_cons hpending, toNat_zext8]
    have hrest : s.pollKeyboard.kbq = q := by rw [pollKeyboard_kbq, hpending, List.tail_cons]
    exact ⟨s.pollKeyboard, memRead_status_cons hpending hwf, peek_status_pollKeyboard_cons hpending hwf, hdata, hrest,
      memKeptBut_pollKeyboard s, pollKeyboard_regs s, pollKeyboard_pc s, pollKeyboard_cond s, pollKeyboard_out s,
      controlKept_pollKeyboard s⟩

end Sys2Proof.Machine

/-! ### The illegal words (30_encoding.md R88) -/

namespace Sys2Proof.Machine

open Sys2Proof.Laws.EncodeOpcode (opcodeOf)

/-! Which words decode to RTI, RES and TRAP: by the opcode field, and for TRAP by the vector. -/

theorem toNat_opcodeField (w : Word) : (opcodeField w).toNat = w.toNat / 4096 := by
  have hw : w.toNat / 4096 < 2 ^ 4 := by omega
  simpa [opcodeField, Nat.shiftRight_eq_div_pow] using hw

theorem toNat_vectorField (w : Word) : (vectorField w).toNat = w.toNat % 256 := by
  simp [vectorField]

theorem mem_routineVectors_iff (vec : BitVec 8) :
    vec ∈ routineVectors ↔ 0x20 ≤ vec.toNat ∧ vec.toNat ≤ 0x25 := by
  decide +revert

theorem decodeTrap_of_not_mem {vec : BitVec 8} (h : vec ∉ routineVectors) : decodeTrap vec = .trap vec := by
  unfold decodeTrap
  split
  case h_7 => rfl
  all_goals exact absurd (by decide) h

theorem decodeTrap_ne_trap {vec : BitVec 8} (h : vec ∈ routineVectors) (v : BitVec 8) : decodeTrap vec ≠ .trap v := by
  fin_cases h <;> exact nofun

theorem decodeTrap_eq_trap_iff (vec v : BitVec 8) : decodeTrap vec = .trap v ↔ vec = v ∧ v ∉ routineVectors := by
  constructor
  · intro h
    have hvec : vec ∉ routineVectors := fun hmem => decodeTrap_ne_trap hmem v h
    rw [decodeTrap_of_not_mem hvec] at h
    cases h
    exact ⟨rfl, hvec⟩
  · rintro ⟨rfl, hvec⟩
    exact decodeTrap_of_not_mem hvec

theorem opcodeOf_decodeTrap (vec : BitVec 8) : opcodeOf (decodeTrap vec) = 0xF#4 := by
  unfold decodeTrap
  split <;> rfl

theorem opcodeOf_decodeJmp (baseR : Reg) : opcodeOf (decodeJmp baseR) = 0xC#4 := by
  cases baseR <;> rfl

/-- The decoded instruction has the word's opcode number (R85, R86). -/
theorem opcodeOf_decode (w : Word) : opcodeOf (decode w) = opcodeField w := by
  unfold decode
  split
  case h_2 h | h_5 h | h_6 h => rw [h]; split <;> rfl
  case h_13 h => rw [h, opcodeOf_decodeJmp]
  case h_16 => -- the arms before it leave only opcode 0xF
    rw [opcodeOf_decodeTrap]
    simp only [imp_false] at *
    bv_omega
  all_goals next h => rw [h]; rfl

theorem decode_eq_rti_iff (w : Word) : decode w = .rti ↔ opcodeField w = 0x8#4 := by
  constructor
  · intro h
    rw [← opcodeOf_decode, h]; rfl
  · intro h
    simp [decode, h]

theorem decode_eq_res_iff (w : Word) : decode w = .res ↔ opcodeField w = 0xD#4 := by
  constructor
  · intro h
    rw [← opcodeOf_decode, h]; rfl
  · intro h
    simp [decode, h]

theorem decode_of_trap_opcode {w : Word} (h : opcodeField w = 0xF#4) : decode w = decodeTrap (vectorField w) := by
  simp [decode, h]

theorem decode_eq_trap_iff (w : Word) (v : BitVec 8) :
    decode w = .trap v ↔ opcodeField w = 0xF#4 ∧ vectorField w = v ∧ v ∉ routineVectors := by
  rw [← decodeTrap_eq_trap_iff]
  constructor
  · intro h
    have hop : opcodeField w = 0xF#4 := by rw [← opcodeOf_decode, h]; rfl
    exact ⟨hop, decode_of_trap_opcode hop ▸ h⟩
  · rintro ⟨hop, h⟩
    rw [decode_of_trap_opcode hop, h]

/-! What executing an instruction does to HALT_CAUSE: the three illegal kinds enter Halted with an error, of the others
only HALT writes it. -/

/-- A handler whose next state, if it has one, has the HALT_CAUSE it began with. -/
def KeepsHaltCause (f : State → Result) : Prop := ∀ s t, f s = .next t → t.haltCause = s.haltCause

theorem keepsHaltCause_execBr (mask : BitVec 3) (off9 : BitVec 9) : KeepsHaltCause (execBr mask off9) := by
  intro s t h
  unfold execBr at h
  split at h <;> cases h <;> rfl

theorem keepsHaltCause_loadFrom (dr : Reg) (ea : Word) : KeepsHaltCause (loadFrom dr ea) := by
  intro s t h
  cases h
  exact memRead_haltCause s ea

theorem indirect_haltCause (s : State) (off9 : BitVec 9) : (s.indirect off9).2.haltCause = s.haltCause :=
  memRead_haltCause s (s.pcRelative off9)

theorem keepsHaltCause_execLdi (dr : Reg) (off9 : BitVec 9) : KeepsHaltCause (execLdi dr off9) := by
  intro s t h
  rw [← indirect_haltCause s off9]
  exact keepsHaltCause_loadFrom _ _ _ t h

theorem keepsHaltCause_execSti (sr : Reg) (off9 : BitVec 9) : KeepsHaltCause (execSti sr off9) := by
  intro s t h
  cases h
  exact indirect_haltCause s off9

theorem keepsHaltCause_execGetc : KeepsHaltCause execGetc := by
  intro s t h
  unfold execGetc at h
  split at h <;> cases h <;> rfl

theorem prompt_haltCause (s : State) : s.prompt.haltCause = s.haltCause := by
  unfold State.prompt
  split <;> rfl

theorem keepsHaltCause_execIn : KeepsHaltCause execIn := by
  intro s t h
  rw [← prompt_haltCause s]
  unfold execIn at h
  split at h <;> cases h <;> rfl

theorem keepsHaltCause_putString (bytesOf : Word → List Byte) : KeepsHaltCause (putString bytesOf) := by
  intro s t h
  rcases putString_cases bytesOf s with ⟨m, hscan, hnext⟩ | ⟨-, hstuck⟩
  · cases hnext.symm.trans h
    exact (scanString_keeps hscan).control.haltCause
  · cases hstuck.symm.trans h

/-- A legal instruction leaves HALT_CAUSE, or is HALT. -/
theorem exec_haltCause_of_legal {i : Instr} (hrti : i ≠ .rti) (hres : i ≠ .res) (htrap : ∀ v, i ≠ .trap v)
    {s t : State} (h : exec i s = .next t) : t.haltCause = s.haltCause ∨ t.haltCause = .haltTrap := by
  cases i with
  | rti => exact absurd rfl hrti
  | res => exact absurd rfl hres
  | trap v => exact absurd rfl (htrap v)
  | halt => cases h; exact .inr rfl
  | addReg | addImm | andReg | andImm | not | ret | jmp | jsr | jsrr | lea | st | str | out => cases h; exact .inl rfl
  | br mask off9 => exact .inl (keepsHaltCause_execBr mask off9 s t h)
  | ld dr off9 => exact .inl (keepsHaltCause_loadFrom _ _ s t h)
  | ldr dr baseR off6 => exact .inl (keepsHaltCause_loadFrom _ _ s t h)
  | ldi dr off9 => exact .inl (keepsHaltCause_execLdi dr off9 s t h)
  | sti sr off9 => exact .inl (keepsHaltCause_execSti sr off9 s t h)
  | getc => exact .inl (keepsHaltCause_execGetc s t h)
  | inChar => exact .inl (keepsHaltCause_execIn s t h)
  | puts | putsp => exact .inl (keepsHaltCause_putString _ s t h)

theorem execTrap_of_not_mem {vec : BitVec 8} (h : vec ∉ routineVectors) (s : State) :
    execTrap vec s = raiseDecodeError .errBadTrap s := by
  unfold execTrap
  split
  case h_7 => rfl
  all_goals exact absurd (by decide) h

/-- Settles O6: the ranges are read off the opcode field and the vector; an error cause comes from no other instruction,
since a legal one leaves NONE or, for HALT, puts HALT_TRAP. -/
theorem illegalWordsAreThreeClasses : Obligations.IllegalWordsAreThreeClasses := by
  unfold Obligations.IllegalWordsAreThreeClasses
  intro w
  have hop := toNat_opcodeField w
  refine ⟨?_, ?_, fun v => ?_, fun s _ hnone => ⟨?_, ?_⟩⟩
  · rw [decode_eq_rti_iff]; bv_omega
  · rw [decode_eq_res_iff]; bv_omega
  · rw [decode_eq_trap_iff, mem_routineVectors_iff]
    have := toNat_vectorField w
    bv_omega
  · rintro ⟨t, hexec, herror⟩
    by_contra hlegal
    push Not at hlegal
    obtain ⟨hrti, hres, htrap⟩ := hlegal
    have hcause := exec_haltCause_of_legal hrti hres htrap hexec
    rw [hnone] at hcause
    rcases hcause with hcause | hcause <;> simp [hcause] at herror
  · rintro (hw | hw | ⟨v, hw⟩)
    · exact ⟨_, by rw [hw]; rfl, .inl rfl⟩
    · exact ⟨_, by rw [hw]; rfl, .inr (.inl rfl)⟩
    · obtain ⟨-, -, hvec⟩ := (decode_eq_trap_iff w v).mp hw
      exact ⟨_, by rw [hw]; exact execTrap_of_not_mem hvec s, .inr (.inr rfl)⟩

end Sys2Proof.Machine

/-! ### ADD, AND, NOT (41_operate.md) -/

namespace Sys2Proof.Machine

/-! A word that matches a table row has the row's opcode, and the row's mode bit where the mask holds it (R85, R86). -/

theorem opcodeField_of_match {w mask pattern : Word} (hmask : opcodeField mask = 0xF#4) (h : w &&& mask = pattern) :
    opcodeField w = opcodeField pattern := by
  have hall : (0xF#4 : BitVec 4) = BitVec.allOnes 4 := rfl
  have hand : opcodeField (w &&& mask) = opcodeField w &&& opcodeField mask := BitVec.extractLsb'_and
  rw [← h, hand, hmask, hall, BitVec.and_allOnes]

theorem immediateMode_of_match {w mask pattern : Word} (hmask : immediateMode mask = true) (h : w &&& mask = pattern) :
    immediateMode w = immediateMode pattern := by
  have hand : immediateMode (w &&& mask) = (immediateMode w && immediateMode mask) := BitVec.getLsbD_and
  rw [← h, hand, hmask, Bool.and_true]

theorem decode_of_add_opcode {w : Word} (h : opcodeField w = 0x1#4) :
    decode w = if immediateMode w then .addImm (regField11 w) (regField8 w) (imm5Field w)
      else .addReg (regField11 w) (regField8 w) (regField2 w) := by
  simp [decode, h]

theorem decode_of_and_opcode {w : Word} (h : opcodeField w = 0x5#4) :
    decode w = if immediateMode w then .andImm (regField11 w) (regField8 w) (imm5Field w)
      else .andReg (regField11 w) (regField8 w) (regField2 w) := by
  simp [decode, h]

theorem decode_of_not_opcode {w : Word} (h : opcodeField w = 0x9#4) : decode w = .not (regField11 w) (regField8 w) := by
  simp [decode, h]

theorem decode_addReg_of_match {w : Word} (h : w &&& 0xF020#16 = 0x1000#16) :
    decode w = .addReg (regField11 w) (regField8 w) (regField2 w) := by
  have hop : opcodeField w = 0x1#4 := opcodeField_of_match rfl h
  have hmode : immediateMode w = false := immediateMode_of_match rfl h
  simp [decode_of_add_opcode hop, hmode]

theorem decode_addImm_of_match {w : Word} (h : w &&& 0xF020#16 = 0x1020#16) :
    decode w = .addImm (regField11 w) (regField8 w) (imm5Field w) := by
  have hop : opcodeField w = 0x1#4 := opcodeField_of_match rfl h
  have hmode : immediateMode w = true := immediateMode_of_match rfl h
  simp [decode_of_add_opcode hop, hmode]

theorem decode_andReg_of_match {w : Word} (h : w &&& 0xF020#16 = 0x5000#16) :
    decode w = .andReg (regField11 w) (regField8 w) (regField2 w) := by
  have hop : opcodeField w = 0x5#4 := opcodeField_of_match rfl h
  have hmode : immediateMode w = false := immediateMode_of_match rfl h
  simp [decode_of_and_opcode hop, hmode]

theorem decode_andImm_of_match {w : Word} (h : w &&& 0xF020#16 = 0x5020#16) :
    decode w = .andImm (regField11 w) (regField8 w) (imm5Field w) := by
  have hop : opcodeField w = 0x5#4 := opcodeField_of_match rfl h
  have hmode : immediateMode w = true := immediateMode_of_match rfl h
  simp [decode_of_and_opcode hop, hmode]

theorem decode_not_of_match {w : Word} (h : w &&& 0xF000#16 = 0x9000#16) :
    decode w = .not (regField11 w) (regField8 w) :=
  decode_of_not_opcode (opcodeField_of_match rfl h)

/-! What the five instructions hand to `operate`. -/

theorem exec_addReg (dr sr1 sr2 : Reg) (s : State) :
    exec (.addReg dr sr1 sr2) s = operate .add dr (s.reg sr1) (s.reg sr2) s := rfl

theorem exec_addImm (dr sr1 : Reg) (imm5 : BitVec 5) (s : State) :
    exec (.addImm dr sr1 imm5) s = operate .add dr (s.reg sr1) (sext imm5) s := rfl

theorem exec_andReg (dr sr1 sr2 : Reg) (s : State) :
    exec (.andReg dr sr1 sr2) s = operate .and dr (s.reg sr1) (s.reg sr2) s := rfl

theorem exec_andImm (dr sr1 : Reg) (imm5 : BitVec 5) (s : State) :
    exec (.andImm dr sr1 imm5) s = operate .and dr (s.reg sr1) (sext imm5) s := rfl

theorem exec_not (dr sr1 : Reg) (s : State) :
    exec (.not dr sr1) s = operate .not dr (s.reg sr1) (s.reg sr1) s := rfl

/-! What the ALU computes (R130), in the words of the rules: over the integers modulo 2^16, or bit by bit. -/

theorem alu_add_eq_ofNat (a b : Word) : alu .add a b = BitVec.ofNat 16 (a.toNat + b.toNat) :=
  BitVec.add_def a b

theorem alu_add_sext {n : Nat} (a : Word) (f : BitVec n) : alu .add a (sext f) = BitVec.ofInt 16 (a.toInt + f.toInt) := by
  rw [BitVec.ofInt_add, BitVec.ofInt_toInt, ← sext_eq_ofInt]
  rfl

theorem alu_not_eq_ofNat (a b : Word) : alu .not a b = BitVec.ofNat 16 (0xFFFF - a.toNat) := by
  apply BitVec.eq_of_toNat_eq
  have hlt : 0xFFFF - a.toNat < 2 ^ 16 := by omega
  rw [BitVec.toNat_ofNat, Nat.mod_eq_of_lt hlt]
  exact BitVec.toNat_not

theorem getLsbD_alu_and (a b : Word) (k : Nat) : (alu .and a b).getLsbD k = (a.getLsbD k && b.getLsbD k) :=
  BitVec.getLsbD_and

/-- Every bit of a word that holds a sign-extended field is a bit of the field: the top one from there upwards. -/
theorem getLsbD_sext_min {n k : Nat} (f : BitVec n) (hn : n ≤ 16) (hk : k < 16) :
    (sext f).getLsbD k = f.getLsbD (min k (n - 1)) := by
  by_cases hkn : k < n
  · rw [getLsbD_sext_low f hn hkn, Nat.min_eq_left (by omega)]
  · rw [getLsbD_sext_high f (by omega) hk, Nat.min_eq_right (by omega)]

/-! How a destination-writing handler that reads no memory ends (40_instruction_cycle.md R118). -/

theorem wroteDest_writeDest (s : State) (dr : Reg) (v : Word) :
    WroteDest dr v s ((s.writeDest dr v).setPc (s.pc + 1#16)) where
  dest := reg_setReg_same s dr v
  regs q hq := reg_setReg_ne s dr q v (List.ne_of_not_mem_cons hq)
  flags := flagsOf_condOf v
  pc := rfl

theorem onlyRegisterFile_writeDest (s : State) (dr : Reg) (v a : Word) :
    OnlyRegisterFile s ((s.writeDest dr v).setPc a) where
  mem _ _ := rfl
  control := ⟨rfl, rfl, rfl, rfl, rfl⟩
  ports := ⟨rfl, rfl⟩

/-- Every operate instruction completes, with the ALU's value in DR, its flags, and nothing else but PC changed. -/
theorem operate_next (op : AluOp) (dr : Reg) (a b : Word) (s : State) :
    ∃ t, operate op dr a b s = .next t ∧ WroteDest dr (alu op a b) s t ∧ OnlyRegisterFile s t :=
  ⟨_, rfl, wroteDest_writeDest s dr _, onlyRegisterFile_writeDest s dr _ _⟩

/-- On equal operands an operation leaves the same DR and the same COND from any two states. -/
theorem operate_dest_cond_eq (op : AluOp) (dr : Reg) (a b : Word) (s s' : State) :
    ∃ t u, operate op dr a b s = .next t ∧ operate op dr a b s' = .next u ∧ t.reg dr = u.reg dr ∧ t.cond = u.cond :=
  ⟨_, _, rfl, rfl, (reg_setReg_same s dr _).trans (reg_setReg_same s' dr _).symm, rfl⟩

/-- Settles O8: the ALU's sum is the sum of the unsigned values modulo 2^16. -/
theorem addRegisterMode : Obligations.AddRegisterMode := by
  unfold Obligations.AddRegisterMode
  refine ⟨fun _ => decode_addReg_of_match, fun dr sr1 sr2 s => ?_⟩
  rw [exec_addReg, ← alu_add_eq_ofNat]
  exact operate_next .add dr (s.reg sr1) (s.reg sr2) s

/-- Settles O9: adding the sign-extended immediate is adding its signed value modulo 2^16. -/
theorem addImmediateMode : Obligations.AddImmediateMode := by
  unfold Obligations.AddImmediateMode
  refine ⟨fun _ => decode_addImm_of_match, fun dr sr1 imm5 s => ?_⟩
  rw [exec_addImm, ← alu_add_sext]
  exact operate_next .add dr (s.reg sr1) (sext imm5) s

/-- Settles O10: the value is the ALU's conjunction, read bit by bit. -/
theorem andRegisterMode : Obligations.AndRegisterMode := by
  unfold Obligations.AndRegisterMode
  refine ⟨fun _ => decode_andReg_of_match, fun dr sr1 sr2 s => ?_⟩
  obtain ⟨t, hexec, hdest, hframe⟩ := operate_next .and dr (s.reg sr1) (s.reg sr2) s
  exact ⟨t, _, hexec, fun k _ => getLsbD_alu_and _ _ k, hdest, hframe⟩

/-- Settles O11: as O10, where bit `k` of the second operand is bit `min k 4` of the immediate. -/
theorem andImmediateMode : Obligations.AndImmediateMode := by
  unfold Obligations.AndImmediateMode
  refine ⟨fun _ => decode_andImm_of_match, fun dr sr1 imm5 s => ?_⟩
  obtain ⟨t, hexec, hdest, hframe⟩ := operate_next .and dr (s.reg sr1) (sext imm5) s
  refine ⟨t, _, hexec, fun k hk => ?_, hdest, hframe⟩
  rw [getLsbD_alu_and, getLsbD_sext_min imm5 (by decide) hk]

/-- Settles O12: the bitwise complement of a word is 0xFFFF minus it. -/
theorem notComplements : Obligations.NotComplements := by
  unfold Obligations.NotComplements
  refine ⟨fun _ => decode_not_of_match, fun dr sr1 s => ?_⟩
  rw [exec_not, ← alu_not_eq_ofNat _ (s.reg sr1)]
  exact operate_next .not dr (s.reg sr1) (s.reg sr1) s

/-- Settles O13: both modes hand the ALU the same two words, also when SR2 is loaded first, since that leaves SR1. -/
theorem registerAndImmediateModesAgree : Obligations.RegisterAndImmediateModesAgree := by
  unfold Obligations.RegisterAndImmediateModesAgree
  intro dr sr1 sr2 k s
  rw [← sext_eq_ofInt]
  refine ⟨fun hsr2 => ?_, fun hne => ?_⟩
  · rw [exec_addReg, exec_addImm, exec_andReg, exec_andImm, hsr2]
    exact ⟨rfl, rfl⟩
  · have hsr1 : (s.setReg sr2 (sext k)).reg sr1 = s.reg sr1 := reg_setReg_ne s sr2 sr1 (sext k) hne.symm
    rw [exec_addReg, exec_addImm, exec_andReg, exec_andImm, hsr1, reg_setReg_same]
    exact ⟨operate_dest_cond_eq .add dr _ _ _ s, operate_dest_cond_eq .and dr _ _ _ s⟩

end Sys2Proof.Machine

/-! ### BR, JMP, RET, JSR, JSRR (42_control.md) -/

namespace Sys2Proof.Machine

/-! The words of the control rows: the opcode, then the bits by which two rows share it (R85, R86). -/

theorem jsrMode_of_match {w mask pattern : Word} (hmask : jsrMode mask = true) (h : w &&& mask = pattern) :
    jsrMode w = jsrMode pattern := by
  have hand : jsrMode (w &&& mask) = (jsrMode w && jsrMode mask) := BitVec.getLsbD_and
  rw [← h, hand, hmask, Bool.and_true]

theorem regField8_of_match {w mask pattern : Word} (hmask : mask.extractLsb' 6 3 = BitVec.allOnes 3)
    (h : w &&& mask = pattern) : regField8 w = regField8 pattern := by
  have hfield : pattern.extractLsb' 6 3 = w.extractLsb' 6 3 := by
    rw [← h, BitVec.extractLsb'_and, hmask, BitVec.and_allOnes]
  unfold regField8
  rw [hfield]

theorem decode_of_jmp_opcode {w : Word} (h : opcodeField w = 0xC#4) : decode w = decodeJmp (regField8 w) := by
  simp [decode, h]

theorem decode_of_jsr_opcode {w : Word} (h : opcodeField w = 0x4#4) :
    decode w = if jsrMode w then .jsr (off11Field w) else .jsrr (regField8 w) := by
  simp [decode, h]

theorem decodeJmp_of_ne {baseR : Reg} (h : baseR ≠ .r7) : decodeJmp baseR = .jmp baseR := by
  cases baseR with
  | r7 => exact absurd rfl h
  | r0 | r1 | r2 | r3 | r4 | r5 | r6 => rfl

theorem decode_br_of_match {w : Word} (h : w &&& 0xF000#16 = 0x0000#16) :
    decode w = .br (maskField w) (off9Field w) := by
  have hop : opcodeField w = 0x0#4 := opcodeField_of_match rfl h
  simp [decode, hop]

theorem decode_jmp_of_match {w : Word} (h : w &&& 0xF000#16 = 0xC000#16) (hbase : regField8 w ≠ .r7) :
    decode w = .jmp (regField8 w) := by
  rw [decode_of_jmp_opcode (opcodeField_of_match rfl h), decodeJmp_of_ne hbase]

theorem decode_ret_of_match {w : Word} (h : w &&& 0xF1C0#16 = 0xC1C0#16) : decode w = .ret := by
  have hbase : regField8 w = .r7 := regField8_of_match rfl h
  rw [decode_of_jmp_opcode (opcodeField_of_match rfl h), hbase, decodeJmp]

theorem decode_jsr_of_match {w : Word} (h : w &&& 0xF800#16 = 0x4800#16) : decode w = .jsr (off11Field w) := by
  have hmode : jsrMode w = true := jsrMode_of_match rfl h
  rw [decode_of_jsr_opcode (opcodeField_of_match rfl h), if_pos hmode]

/-! How the control instructions end: each is `completeAt`, from the state itself or from the linked one. -/

/-- The test of BR finds a flag that is both named and set (10_state.md R24). -/
theorem branchTaken_iff (mask cond : BitVec 3) :
    branchTaken mask cond = true ↔ ∃ k, mask.getLsbD k = true ∧ cond.getLsbD k = true := by
  simp [branchTaken, BitVec.zero_iff_eq_false]

theorem exec_br_of_taken {mask : BitVec 3} {s : State} (h : branchTaken mask s.cond = true) (off9 : BitVec 9) :
    exec (.br mask off9) s = completeAt s (s.pcPlus off9.toInt) := by
  rw [← pcRelative_eq]
  exact if_pos h

theorem exec_br_of_not_taken {mask : BitVec 3} {s : State} (h : ¬branchTaken mask s.cond = true) (off9 : BitVec 9) :
    exec (.br mask off9) s = completeAt s (s.pc + 1#16) := if_neg h

theorem exec_jmp (baseR : Reg) (s : State) : exec (.jmp baseR) s = completeAt s (s.reg baseR) := rfl

theorem exec_ret (s : State) : exec .ret s = completeAt s (s.reg .r7) := rfl

theorem exec_jsr (off11 : BitVec 11) (s : State) :
    exec (.jsr off11) s = completeAt s.link (s.pcPlus off11.toInt) := by
  rw [← pcRelative_eq]
  rfl

/-- The link is written first, but a base other than R7 does not see it (R157). -/
theorem exec_jsrr_of_ne {baseR : Reg} (h : baseR ≠ .r7) (s : State) :
    exec (.jsrr baseR) s = completeAt s.link (s.reg baseR) := by
  have hbase : s.link.reg baseR = s.reg baseR := reg_setReg_ne s .r7 baseR s.nextPc h
  rw [← hbase]
  rfl

/-- Whatever is put in the general registers, PC and COND, the rest of the state is kept. -/
theorem onlyRegisterFile_of_writes (s : State) (g : Regs) (a : Word) (c : BitVec 3) :
    OnlyRegisterFile s { s with regs := g, pc := a, cond := c } where
  mem _ _ := rfl
  control := ⟨rfl, rfl, rfl, rfl, rfl⟩
  ports := ⟨rfl, rfl⟩

/-- A jump completes at its target and changes nothing but PC (R150). -/
theorem completeAt_next (s : State) (target : Word) :
    ∃ t, completeAt s target = .next t ∧
      t.pc = target ∧ t.cond = s.cond ∧ RegsKeptBut [] s t ∧ OnlyRegisterFile s t :=
  ⟨s.setPc target, rfl, rfl, rfl, fun _ _ => rfl, onlyRegisterFile_of_writes s s.regs target s.cond⟩

/-- A call completes at its target with the link in R7, and changes nothing else (R150, R152). -/
theorem completeAt_link_next (s : State) (target : Word) :
    ∃ t, completeAt s.link target = .next t ∧ t.reg .r7 = s.pc + 1#16 ∧
      t.pc = target ∧ t.cond = s.cond ∧ RegsKeptBut [.r7] s t ∧ OnlyRegisterFile s t :=
  ⟨s.link.setPc target, rfl, reg_setReg_same s .r7 s.nextPc, rfl, rfl,
    fun q hq => reg_setReg_ne s .r7 q s.nextPc (List.ne_of_not_mem_cons hq),
    onlyRegisterFile_of_writes s s.link.regs target s.cond⟩

/-- After a call, RET in any state that holds its link goes on at the instruction after the call (R158). -/
theorem completeAt_link_then_ret (s : State) (target : Word) :
    ∃ t, completeAt s.link target = .next t ∧ t.reg .r7 = s.pc + 1#16 ∧ t.pc = target ∧
      ∀ u : State, u.reg .r7 = t.reg .r7 → ∃ v, exec .ret u = .next v ∧ v.pc = s.pc + 1#16 := by
  obtain ⟨t, hcall, hlink, hpc, -⟩ := completeAt_link_next s target
  refine ⟨t, hcall, hlink, hpc, fun u hu => ?_⟩
  rw [exec_ret, hu, hlink]
  obtain ⟨v, hret, hback, -⟩ := completeAt_next u (s.pc + 1#16)
  exact ⟨v, hret, hback⟩

/-- Settles O15: the two cases are the two arms of BR, told apart by whether a named flag is set. -/
theorem branchTakenByMaskAndFlags : Obligations.BranchTakenByMaskAndFlags := by
  unfold Obligations.BranchTakenByMaskAndFlags
  refine ⟨fun _ => decode_br_of_match, fun mask off9 s => ?_⟩
  by_cases htaken : branchTaken mask s.cond = true
  · obtain ⟨k, hmask, hcond⟩ := (branchTaken_iff mask s.cond).mp htaken
    rw [exec_br_of_taken htaken]
    obtain ⟨t, hnext, hpc, hframe⟩ := completeAt_next s (s.pcPlus off9.toInt)
    exact ⟨t, hnext, fun _ => hpc, fun hnone => absurd (hnone k hmask) (by simp [hcond]), hframe⟩
  · rw [exec_br_of_not_taken htaken]
    obtain ⟨t, hnext, hpc, hframe⟩ := completeAt_next s (s.pc + 1#16)
    exact ⟨t, hnext, fun hset => absurd ((branchTaken_iff mask s.cond).mpr hset) htaken, fun _ => hpc, hframe⟩

/-- Settles O16: JMP and RET are jumps to the content of a register, for every register. -/
theorem jumpThroughRegister : Obligations.JumpThroughRegister := by
  unfold Obligations.JumpThroughRegister
  refine ⟨fun _ => decode_jmp_of_match, fun _ => decode_ret_of_match, fun baseR s => ?_, fun s => ?_⟩
  · rw [exec_jmp]
    exact completeAt_next s (s.reg baseR)
  · rw [exec_ret]
    exact completeAt_next s (s.reg .r7)

/-- Settles O17: JSR is a call whose target is PC' plus the offset modulo 2^16. -/
theorem jsrLinksAndJumps : Obligations.JsrLinksAndJumps := by
  unfold Obligations.JsrLinksAndJumps
  refine ⟨fun _ => decode_jsr_of_match, fun off11 s => ?_⟩
  rw [exec_jsr]
  exact completeAt_link_next s (s.pcPlus off11.toInt)

/-- Settles O19: JSR, and JSRR with a base that the link does not overwrite, are calls, and RET undoes a call. -/
theorem callThenReturn : Obligations.CallThenReturn := by
  unfold Obligations.CallThenReturn
  refine ⟨fun off11 s => ?_, fun baseR s hbase => ?_⟩
  · rw [exec_jsr]
    exact completeAt_link_then_ret s (s.pcPlus off11.toInt)
  · rw [exec_jsrr_of_ne hbase]
    exact completeAt_link_then_ret s (s.reg baseR)

end Sys2Proof.Machine

/-! ### LD, LDI, LDR, LEA (43_load.md) -/

namespace Sys2Proof.Machine

/-! The words of the load rows: each opcode has one row (R85, R86). -/

theorem decode_ld_of_match {w : Word} (h : w &&& 0xF000#16 = 0x2000#16) :
    decode w = .ld (regField11 w) (off9Field w) := by
  have hop : opcodeField w = 0x2#4 := opcodeField_of_match rfl h
  simp [decode, hop]

theorem decode_ldi_of_match {w : Word} (h : w &&& 0xF000#16 = 0xA000#16) :
    decode w = .ldi (regField11 w) (off9Field w) := by
  have hop : opcodeField w = 0xA#4 := opcodeField_of_match rfl h
  simp [decode, hop]

theorem decode_ldr_of_match {w : Word} (h : w &&& 0xF000#16 = 0x6000#16) :
    decode w = .ldr (regField11 w) (regField8 w) (off6Field w) := by
  have hop : opcodeField w = 0x6#4 := opcodeField_of_match rfl h
  simp [decode, hop]

theorem decode_lea_of_match {w : Word} (h : w &&& 0xF000#16 = 0xE000#16) :
    decode w = .lea (regField11 w) (off9Field w) := by
  have hop : opcodeField w = 0xE#4 := opcodeField_of_match rfl h
  simp [decode, hop]

/-! What the four instructions do, with their addresses in the words of R170. -/

theorem exec_ld (dr : Reg) (off9 : BitVec 9) (s : State) :
    exec (.ld dr off9) s = loadFrom dr (s.pcPlus off9.toInt) s := by
  rw [← pcRelative_eq]
  rfl

theorem exec_ldi (dr : Reg) (off9 : BitVec 9) (s : State) :
    exec (.ldi dr off9) s =
      loadFrom dr (s.memRead (s.pcPlus off9.toInt)).1 (s.memRead (s.pcPlus off9.toInt)).2 := by
  rw [← pcRelative_eq]
  rfl

theorem exec_ldr (dr baseR : Reg) (off6 : BitVec 6) (s : State) :
    exec (.ldr dr baseR off6) s = loadFrom dr (s.basePlus baseR off6.toInt) s := by
  rw [← baseOffset_eq]
  rfl

theorem exec_lea (dr : Reg) (off9 : BitVec 9) (s : State) :
    exec (.lea dr off9) s = complete (s.writeDest dr (s.pcPlus off9.toInt)) := by
  rw [← pcRelative_eq]
  rfl

/-! A read touches only KBQ and the device cells (20_memory.md R52), so what is kept of the state it left is kept of the
state it began in. -/

theorem ControlKept.trans {s m t : State} (hsm : ControlKept s m) (hmt : ControlKept m t) : ControlKept s t where
  run := hmt.run.trans hsm.run
  haltCause := hmt.haltCause.trans hsm.haltCause
  prompted := hmt.prompted.trans hsm.prompted
  stopReq := hmt.stopReq.trans hsm.stopReq
  config := hmt.config.trans hsm.config

theorem controlKept_memRead (s : State) (a : Word) : ControlKept s (s.memRead a).2 :=
  (scanKeeps_memRead s a).control

theorem WroteDest.of_after_memRead {dr : Reg} {v a : Word} {s t : State} (h : WroteDest dr v (s.memRead a).2 t) :
    WroteDest dr v s t where
  dest := h.dest
  regs q hq := (h.regs q hq).trans (memRead_reg s a q)
  flags := h.flags
  pc := by rw [h.pc, memRead_pc]

theorem LoadedFrom.of_after_memRead {dr : Reg} {a : Word} {r : Word × State} {s t : State}
    (h : LoadedFrom dr r (s.memRead a).2 t) : LoadedFrom dr r s t where
  dest := h.dest.of_after_memRead
  mem := h.mem
  kbq := h.kbq
  out := h.out.trans (memRead_out s a)
  control := (controlKept_memRead s a).trans h.control

/-! How the loads end (R171). -/

theorem loadedFrom_writeDest (s : State) (dr : Reg) (v : Word) :
    LoadedFrom dr (v, s) s ((s.writeDest dr v).setPc (s.pc + 1#16)) where
  dest := wroteDest_writeDest s dr v
  mem := (onlyRegisterFile_writeDest s dr v _).mem
  kbq := (onlyRegisterFile_writeDest s dr v _).ports.kbq
  out := (onlyRegisterFile_writeDest s dr v _).ports.out
  control := (onlyRegisterFile_writeDest s dr v _).control

/-- Every load completes, with what MemRead gives at its address in DR and the state MemRead leaves around it. -/
theorem loadFrom_next (dr : Reg) (ea : Word) (s : State) :
    ∃ t, loadFrom dr ea s = .next t ∧ LoadedFrom dr (s.memRead ea) s t :=
  ⟨_, rfl, (loadedFrom_writeDest (s.memRead ea).2 dr (s.memRead ea).1).of_after_memRead⟩

/-- A load from any cell but the status cell gets the cell's content and leaves all of memory and KBQ. -/
theorem LoadedFrom.of_plain_cell {dr : Reg} {ea : Word} {s t : State} (h : LoadedFrom dr (s.memRead ea) s t)
    (hea : ea ≠ s.config.kbsrAddr) : t.reg dr = s.peek ea ∧ MemKeptBut [] s t ∧ t.kbq = s.kbq := by
  rw [memRead_plain hea] at h
  exact ⟨h.dest.dest, h.mem, h.kbq⟩

/-- Settles O20: LD is the load from PC' plus the offset modulo 2^16. -/
theorem loadPcRelative : Obligations.LoadPcRelative := by
  unfold Obligations.LoadPcRelative
  refine ⟨fun _ => decode_ld_of_match, fun dr off9 s => ?_⟩
  rw [exec_ld]
  obtain ⟨t, hnext, hloaded⟩ := loadFrom_next dr (s.pcPlus off9.toInt) s
  exact ⟨t, hnext, hloaded, hloaded.of_plain_cell⟩

/-- Settles O21: LDI is the load from the pointer, run in the state that the read of the pointer left; that read changes
nothing a load keeps. -/
theorem loadIndirect : Obligations.LoadIndirect := by
  unfold Obligations.LoadIndirect
  refine ⟨fun _ => decode_ldi_of_match, fun dr off9 s => ?_⟩
  rw [exec_ldi]
  obtain ⟨t, hnext, hdata⟩ :=
    loadFrom_next dr (s.memRead (s.pcPlus off9.toInt)).1 (s.memRead (s.pcPlus off9.toInt)).2
  refine ⟨t, hnext, hdata.of_after_memRead, fun hpointer hcell => ?_⟩
  rw [memRead_plain hpointer] at hdata
  exact hdata.of_plain_cell hcell

/-- Settles O22: LDR is the load from the base plus the offset modulo 2^16, an address computed before DR is written. -/
theorem loadBaseOffset : Obligations.LoadBaseOffset := by
  unfold Obligations.LoadBaseOffset
  refine ⟨fun _ => decode_ldr_of_match, fun dr baseR off6 s => ?_⟩
  rw [exec_ldr]
  obtain ⟨t, hnext, hloaded⟩ := loadFrom_next dr (s.basePlus baseR off6.toInt) s
  exact ⟨t, hnext, hloaded, hloaded.of_plain_cell⟩

/-- Settles O23: LEA writes the address as an operate instruction writes its result, and reads nothing. -/
theorem loadEffectiveAddress : Obligations.LoadEffectiveAddress := by
  unfold Obligations.LoadEffectiveAddress
  refine ⟨fun _ => decode_lea_of_match, fun dr off9 s => ?_⟩
  rw [exec_lea, complete_eq]
  exact ⟨_, rfl, wroteDest_writeDest s dr _, onlyRegisterFile_writeDest s dr _ _⟩

end Sys2Proof.Machine

/-! ### ST, STI, STR (44_store.md) -/

namespace Sys2Proof.Machine

/-! The words of the store rows: each opcode has one row (R85, R86). -/

theorem decode_st_of_match {w : Word} (h : w &&& 0xF000#16 = 0x3000#16) :
    decode w = .st (regField11 w) (off9Field w) := by
  have hop : opcodeField w = 0x3#4 := opcodeField_of_match rfl h
  simp [decode, hop]

theorem decode_sti_of_match {w : Word} (h : w &&& 0xF000#16 = 0xB000#16) :
    decode w = .sti (regField11 w) (off9Field w) := by
  have hop : opcodeField w = 0xB#4 := opcodeField_of_match rfl h
  simp [decode, hop]

theorem decode_str_of_match {w : Word} (h : w &&& 0xF000#16 = 0x7000#16) :
    decode w = .str (regField11 w) (regField8 w) (off6Field w) := by
  have hop : opcodeField w = 0x7#4 := opcodeField_of_match rfl h
  simp [decode, hop]

/-! What the three instructions do. -/

theorem indirect_eq (s : State) (off9 : BitVec 9) : s.indirect off9 = s.memRead (s.pcPlus off9.toInt) := by
  rw [← pcRelative_eq]
  rfl

theorem exec_st (sr : Reg) (off9 : BitVec 9) (s : State) :
    exec (.st sr off9) s = storeTo (s.pcRelative off9) (s.reg sr) s := rfl

/-- STI stores what SR held before the pointer was read: that read leaves every register. -/
theorem exec_sti (sr : Reg) (off9 : BitVec 9) (s : State) :
    exec (.sti sr off9) s = storeTo (s.indirect off9).1 (s.reg sr) (s.indirect off9).2 := by
  rw [← memRead_reg s (s.pcRelative off9) sr]
  rfl

theorem exec_str (sr baseR : Reg) (off6 : BitVec 6) (s : State) :
    exec (.str sr baseR off6) s = storeTo (s.baseOffset baseR off6) (s.reg sr) s := rfl

/-! How the stores end (R190). -/

theorem storedAt_memWrite (s : State) (a v : Word) :
    StoredAt a v s s ((s.memWrite a v).setPc (s.pc + 1#16)) where
  cell := by rw [setPc_peek, peek_memWrite, if_pos rfl]
  others b hb := by rw [setPc_peek, peek_memWrite, if_neg (List.ne_of_not_mem_cons hb)]
  kbq := rfl
  regs _ _ := rfl
  cond := rfl
  pc := rfl
  out := rfl
  control := ⟨rfl, rfl, rfl, rfl, rfl⟩

/-- Every store completes, with the value in its cell and nothing else but PC changed. -/
theorem storeTo_next (ea v : Word) (s : State) : ∃ t, storeTo ea v s = .next t ∧ StoredAt ea v s s t :=
  ⟨_, rfl, storedAt_memWrite s ea v⟩

/-- A read touches only KBQ and the device cells, so a store in the state it left keeps the rest of the state the read
began in. -/
theorem StoredAt.of_after_memRead {ea v a : Word} {m s t : State} (h : StoredAt ea v m (s.memRead a).2 t) :
    StoredAt ea v m s t where
  cell := h.cell
  others := h.others
  kbq := h.kbq
  regs q hq := (h.regs q hq).trans (memRead_reg s a q)
  cond := h.cond.trans (memRead_cond s a)
  pc := by rw [h.pc, memRead_pc]
  out := h.out.trans (memRead_out s a)
  control := (controlKept_memRead s a).trans h.control

/-- Settles O24: ST is the store to PC' plus the offset modulo 2^16. -/
theorem storePcRelative : Obligations.StorePcRelative := by
  unfold Obligations.StorePcRelative
  refine ⟨fun _ => decode_st_of_match, fun sr off9 s => ⟨pcRelative_eq s off9, ?_⟩⟩
  rw [exec_st]
  exact storeTo_next (s.pcRelative off9) (s.reg sr) s

/-- Settles O25: STI is the store to the pointer, run in the state that the read of the pointer left; that is the state
itself where the pointer cell is plain. -/
theorem storeIndirect : Obligations.StoreIndirect := by
  unfold Obligations.StoreIndirect
  refine ⟨fun _ => decode_sti_of_match, fun sr off9 s => ⟨indirect_eq s off9, ?_⟩⟩
  rw [exec_sti, indirect_eq]
  obtain ⟨t, hnext, hstored⟩ :=
    storeTo_next (s.memRead (s.pcPlus off9.toInt)).1 (s.reg sr) (s.memRead (s.pcPlus off9.toInt)).2
  refine ⟨t, hnext, hstored.of_after_memRead, fun hplain => ?_⟩
  rwa [memRead_plain hplain] at hstored

/-- Settles O26: STR is the store to the base plus the offset modulo 2^16; SR may be BaseR, since neither is written. -/
theorem storeBaseOffset : Obligations.StoreBaseOffset := by
  unfold Obligations.StoreBaseOffset
  refine ⟨fun _ => decode_str_of_match, fun sr baseR off6 s => ⟨baseOffset_eq s baseR off6, ?_⟩⟩
  rw [exec_str]
  exact storeTo_next (s.baseOffset baseR off6) (s.reg sr) s

end Sys2Proof.Machine

/-! ### OUT (45_trap.md R214) -/

namespace Sys2Proof.Machine

theorem vectorField_of_match {w mask pattern : Word} (hmask : vectorField mask = 0xFF#8) (h : w &&& mask = pattern) :
    vectorField w = vectorField pattern := by
  have hall : (0xFF#8 : BitVec 8) = BitVec.allOnes 8 := rfl
  have hand : vectorField (w &&& mask) = vectorField w &&& vectorField mask := BitVec.extractLsb'_and
  rw [← h, hand, hmask, hall, BitVec.and_allOnes]

/-- The rows of the trap routines fix the opcode and the vector; bits [11:8] are ignored (R87). -/
theorem decode_of_trap_match {w pattern : Word} (hop : opcodeField pattern = 0xF#4) (h : w &&& 0xF0FF#16 = pattern) :
    decode w = decodeTrap (vectorField pattern) := by
  have hopw : opcodeField w = 0xF#4 := (opcodeField_of_match rfl h).trans hop
  have hvec : vectorField w = vectorField pattern := vectorField_of_match rfl h
  rw [decode_of_trap_opcode hopw, hvec]

theorem decode_out_of_match {w : Word} (h : w &&& 0xF0FF#16 = 0xF021#16) : decode w = .out :=
  decode_of_trap_match rfl h

theorem lowByte_eq_ofNat (w : Word) : lowByte w = BitVec.ofNat 8 w.toNat := by
  simp [lowByte, BitVec.extractLsb']

/-- The link goes to R7 alone, so a routine that takes its character from R0 finds it there after the link. -/
theorem exec_out (s : State) :
    exec .out s = complete (s.link.emit [.write (BitVec.ofNat 8 (s.reg .r0).toNat)]) := by
  have hr0 : s.link.reg .r0 = s.reg .r0 := reg_setReg_ne s .r7 .r0 s.nextPc (by decide)
  rw [← lowByte_eq_ofNat, ← hr0]
  rfl

/-- A routine that has written no register but the link goes on as R210 says, whatever it has written elsewhere. -/
theorem trapReturned_complete {s m : State} (hregs : m.regs = s.link.regs) (hpc : m.pc = s.pc) (hcond : m.cond = s.cond) :
    TrapReturned [] s (m.setPc m.nextPc) :=
  have hreg (q : Reg) : (m.setPc m.nextPc).reg q = s.link.reg q := congrArg (Regs.get · q) hregs
  { link := (hreg .r7).trans (reg_setReg_same s .r7 s.nextPc)
    regs := fun q hq => (hreg q).trans (reg_setReg_ne s .r7 q s.nextPc (List.ne_of_not_mem_cons hq))
    pc := congrArg (· + 1#16) hpc
    cond := hcond }

/-- A routine that links, writes its events and completes changes R7, PC and OUT alone. -/
theorem complete_link_emit_next (s : State) (es : List OutEvent) :
    ∃ t, complete (s.link.emit es) = .next t ∧ t.out = s.out ++ es ∧
      TrapReturned [] s t ∧ t.kbq = s.kbq ∧ MemKeptBut [] s t ∧ ControlKept s t :=
  ⟨(s.link.emit es).setPc (s.link.emit es).nextPc, rfl, rfl, trapReturned_complete rfl rfl rfl, rfl, fun _ _ => rfl,
    ⟨rfl, rfl, rfl, rfl, rfl⟩⟩

/-- Settles O35: OUT links, writes one event and completes, and that event is the low byte R0 held before the link. -/
theorem outWritesLowByte : Obligations.OutWritesLowByte := by
  unfold Obligations.OutWritesLowByte
  refine ⟨fun _ => decode_out_of_match, fun s => ?_⟩
  rw [exec_out]
  exact complete_link_emit_next s [.write (BitVec.ofNat 8 (s.reg .r0).toNat)]

end Sys2Proof.Machine

/-! ### The encoder's words read back by the decoder (30_encoding.md R82 to R86) -/

namespace Sys2Proof

/-! A word of a format is a union of placed fields. Reading a field of the union gives the field placed there: every
other one lies wholly above or below it. -/

@[simp] theorem extractLsb'_place_same {n : Nat} (f : BitVec n) (lo : Nat) (h : lo + n ≤ 16) :
    (place f lo).extractLsb' lo n = f := by
  apply BitVec.eq_of_getLsbD_eq
  intro i hi
  have hword : lo + i < 16 := by omega
  simp [place, hi, hword]

@[simp] theorem extractLsb'_place_below {n : Nat} (f : BitVec n) (lo k m : Nat) (h : lo + n ≤ k) :
    (place f lo).extractLsb' k m = 0#m := by
  apply BitVec.eq_of_getLsbD_eq
  intro i hi
  have hf : f.getLsbD (k + i - lo) = false := BitVec.getLsbD_of_ge f _ (by omega)
  simp [place, hf]

@[simp] theorem extractLsb'_place_above {n : Nat} (f : BitVec n) (lo k m : Nat) (h : k + m ≤ lo) :
    (place f lo).extractLsb' k m = 0#m := by
  apply BitVec.eq_of_getLsbD_eq
  intro i hi
  have hlow : k + i < lo := by omega
  simp [place, hlow]

@[simp] theorem getElem_place_below {n : Nat} (f : BitVec n) (lo k : Nat) (h : lo + n ≤ k) (hk : k < 16) :
    (place f lo)[k] = false := by
  have hf : f.getLsbD (k - lo) = false := BitVec.getLsbD_of_ge f _ (by omega)
  simp [place, hf]

@[simp] theorem getElem_place_above {n : Nat} (f : BitVec n) (lo k : Nat) (h : k < lo) (hk : k < 16) :
    (place f lo)[k] = false := by
  simp [place, h]

@[simp] theorem Reg.ofField_field (r : Reg) : Reg.ofField r.field = r := by cases r <;> rfl

/-! The fields of each format's word. -/

theorem fields_encOpr (op : BitVec 4) (dr sr1 sr2 : Reg) :
    immediateMode (encOpr op dr sr1 sr2) = false ∧ regField11 (encOpr op dr sr1 sr2) = dr ∧
      regField8 (encOpr op dr sr1 sr2) = sr1 ∧ regField2 (encOpr op dr sr1 sr2) = sr2 := by
  simp [immediateMode, regField11, regField8, regField2, encOpr, BitVec.extractLsb'_or]

theorem fields_encOpi (op : BitVec 4) (dr sr1 : Reg) (imm5 : BitVec 5) :
    immediateMode (encOpi op dr sr1 imm5) = true ∧ regField11 (encOpi op dr sr1 imm5) = dr ∧
      regField8 (encOpi op dr sr1 imm5) = sr1 ∧ imm5Field (encOpi op dr sr1 imm5) = imm5 := by
  have hmode : (place 1#1 5).getLsbD 5 = true := rfl
  simp [immediateMode, regField11, regField8, imm5Field, encOpi, BitVec.extractLsb'_or, hmode]

theorem fields_encode_not (dr sr1 : Reg) :
    regField11 (encode (.not dr sr1)) = dr ∧ regField8 (encode (.not dr sr1)) = sr1 := by
  simp [regField11, regField8, encode, BitVec.extractLsb'_or]

theorem fields_encPc9 (op : BitVec 4) (f : BitVec 3) (off9 : BitVec 9) :
    maskField (encPc9 op f off9) = f ∧ regField11 (encPc9 op f off9) = Reg.ofField f ∧
      off9Field (encPc9 op f off9) = off9 := by
  simp [maskField, regField11, off9Field, encPc9, BitVec.extractLsb'_or]

theorem fields_encBase6 (op : BitVec 4) (r baseR : Reg) (off6 : BitVec 6) :
    regField11 (encBase6 op r baseR off6) = r ∧ regField8 (encBase6 op r baseR off6) = baseR ∧
      off6Field (encBase6 op r baseR off6) = off6 := by
  simp [regField11, regField8, off6Field, encBase6, BitVec.extractLsb'_or]

theorem fields_encBase (op : BitVec 4) (baseR : Reg) :
    jsrMode (encBase op baseR) = false ∧ regField8 (encBase op baseR) = baseR := by
  simp [jsrMode, regField8, encBase, BitVec.extractLsb'_or]

theorem fields_encode_jsr (off11 : BitVec 11) :
    jsrMode (encode (.jsr off11)) = true ∧ off11Field (encode (.jsr off11)) = off11 := by
  have hmode : (place 1#1 11).getLsbD 11 = true := rfl
  simp [jsrMode, off11Field, encode, BitVec.extractLsb'_or, hmode]

theorem vectorField_encTrap (vec : BitVec 8) : vectorField (encTrap vec) = vec := by
  simp [vectorField, encTrap, BitVec.extractLsb'_or]

end Sys2Proof

namespace Sys2Proof

open Sys2Proof.Machine
open Sys2Proof.Laws.EncodeOpcode (opcodeOf)

theorem opcodeField_encode (i : Instr) : opcodeField (encode i) = opcodeOf i := by
  cases i with
  | addReg dr sr1 sr2 => exact Laws.EncodeOpcode.addReg dr sr1 sr2
  | addImm dr sr1 imm5 => exact Laws.EncodeOpcode.addImm dr sr1 imm5
  | andReg dr sr1 sr2 => exact Laws.EncodeOpcode.andReg dr sr1 sr2
  | andImm dr sr1 imm5 => exact Laws.EncodeOpcode.andImm dr sr1 imm5
  | not dr sr1 => exact Laws.EncodeOpcode.not dr sr1
  | br mask off9 => exact Laws.EncodeOpcode.br mask off9
  | jmp baseR => exact Laws.EncodeOpcode.jmp baseR
  | jsr off11 => exact Laws.EncodeOpcode.jsr off11
  | jsrr baseR => exact Laws.EncodeOpcode.jsrr baseR
  | ld dr off9 => exact Laws.EncodeOpcode.ld dr off9
  | ldi dr off9 => exact Laws.EncodeOpcode.ldi dr off9
  | ldr dr baseR off6 => exact Laws.EncodeOpcode.ldr dr baseR off6
  | lea dr off9 => exact Laws.EncodeOpcode.lea dr off9
  | st sr off9 => exact Laws.EncodeOpcode.st sr off9
  | sti sr off9 => exact Laws.EncodeOpcode.sti sr off9
  | str sr baseR off6 => exact Laws.EncodeOpcode.str sr baseR off6
  | trap vec => exact Laws.EncodeOpcode.trap vec
  | ret | getc | out | puts | inChar | putsp | halt | rti | res => rfl

/-- Settles O2: the opcode and the mode bit of the word select the arm of the decoder, and every field reads back what
the encoder placed there; well-formedness keeps JMP from the RET row and TRAP from the rows of the routines. -/
theorem decodeEncodeRoundTrip : Obligations.DecodeEncodeRoundTrip := by
  unfold Obligations.DecodeEncodeRoundTrip
  intro i hwf
  have hop := opcodeField_encode i
  cases i with
  | addReg dr sr1 sr2 =>
    obtain ⟨hmode, hdr, hsr1, hsr2⟩ := fields_encOpr 0x1#4 dr sr1 sr2
    rw [decode_of_add_opcode hop, encode, hmode, if_neg Bool.false_ne_true, hdr, hsr1, hsr2]
  | andReg dr sr1 sr2 =>
    obtain ⟨hmode, hdr, hsr1, hsr2⟩ := fields_encOpr 0x5#4 dr sr1 sr2
    rw [decode_of_and_opcode hop, encode, hmode, if_neg Bool.false_ne_true, hdr, hsr1, hsr2]
  | addImm dr sr1 imm5 =>
    obtain ⟨hmode, hdr, hsr1, himm⟩ := fields_encOpi 0x1#4 dr sr1 imm5
    rw [decode_of_add_opcode hop, encode, hmode, if_pos rfl, hdr, hsr1, himm]
  | andImm dr sr1 imm5 =>
    obtain ⟨hmode, hdr, hsr1, himm⟩ := fields_encOpi 0x5#4 dr sr1 imm5
    rw [decode_of_and_opcode hop, encode, hmode, if_pos rfl, hdr, hsr1, himm]
  | not dr sr1 =>
    obtain ⟨hdr, hsr1⟩ := fields_encode_not dr sr1
    rw [decode_of_not_opcode hop, hdr, hsr1]
  | br mask off9 =>
    obtain ⟨hmask, -, hoff⟩ := fields_encPc9 0x0#4 mask off9
    unfold decode
    rw [hop, encode, hmask, hoff]
    rfl
  | ld r off9 | ldi r off9 | lea r off9 | st r off9 | sti r off9 =>
    unfold decode
    rw [hop, encode]
    simp [opcodeOf, fields_encPc9]
  | ldr r baseR off6 | str r baseR off6 =>
    unfold decode
    rw [hop, encode]
    simp [opcodeOf, fields_encBase6]
  | jmp baseR =>
    have hbase : baseR ≠ .r7 := of_decide_eq_true hwf
    rw [decode_of_jmp_opcode hop, encode, (fields_encBase 0xC#4 baseR).2, decodeJmp_of_ne hbase]
  | jsr off11 =>
    obtain ⟨hmode, hoff⟩ := fields_encode_jsr off11
    rw [decode_of_jsr_opcode hop, hmode, hoff, if_pos rfl]
  | jsrr baseR =>
    obtain ⟨hmode, hbase⟩ := fields_encBase 0x4#4 baseR
    rw [decode_of_jsr_opcode hop, encode, hmode, if_neg Bool.false_ne_true, hbase]
  | trap vec =>
    have hvec : vec ∉ routineVectors := by simpa [Instr.wf] using hwf
    rw [decode_of_trap_opcode hop, encode, vectorField_encTrap, decodeTrap_of_not_mem hvec]
  | ret | getc | out | puts | inChar | putsp | halt | rti | res => rfl

end Sys2Proof

/-! ### What every instruction and every step keeps (10_state.md R21, R32, R37) -/

namespace Sys2Proof.Machine

/-- HALT_CAUSE is NONE exactly while Running (10_state.md R37 (c)). -/
def CauseMatchesRun (s : State) : Prop := s.haltCause = .none ↔ s.run = .running

/-- What an instruction keeps that writes at most the registers `rs`, and PROMPTED only if `latch` says so. -/
structure Keeps (rs : List Reg) (latch : Bool) (s t : State) : Prop where
  regs : RegsKeptBut rs s t
  prompted : latch = false → t.prompted = s.prompted
  config : t.config = s.config
  stopReq : t.stopReq = s.stopReq
  out : ∃ es, t.out = s.out ++ es
  kbq : ∃ taken, s.kbq = taken ++ t.kbq
  form : s.mem.wf = true → t.mem.wf = true
  cause : CauseMatchesRun s → CauseMatchesRun t

/-! An instruction is a chain of the named operations; each link of the chain keeps what the chain kept so far. -/

namespace Keeps

variable {rs : List Reg} {latch : Bool} {s m : State}

theorem refl (rs : List Reg) (latch : Bool) (s : State) : Keeps rs latch s s where
  regs _ _ := rfl
  prompted _ := rfl
  config := rfl
  stopReq := rfl
  out := ⟨[], (List.append_nil _).symm⟩
  kbq := ⟨[], rfl⟩
  form := id
  cause := id

theorem trans {t : State} (h : Keeps rs latch s m) (k : Keeps rs latch m t) : Keeps rs latch s t where
  regs q hq := (k.regs q hq).trans (h.regs q hq)
  prompted hl := (k.prompted hl).trans (h.prompted hl)
  config := k.config.trans h.config
  stopReq := k.stopReq.trans h.stopReq
  out := by
    obtain ⟨es, hm⟩ := h.out
    obtain ⟨es', ht⟩ := k.out
    exact ⟨es ++ es', by rw [ht, hm, List.append_assoc]⟩
  kbq := by
    obtain ⟨taken, hs⟩ := h.kbq
    obtain ⟨taken', hm⟩ := k.kbq
    exact ⟨taken ++ taken', by rw [hs, hm, List.append_assoc]⟩
  form hs := k.form (h.form hs)
  cause hs := k.cause (h.cause hs)

theorem setReg (h : Keeps rs latch s m) {r : Reg} (hr : r ∈ rs) (v : Word) : Keeps rs latch s (m.setReg r v) :=
  { h with regs := fun q hq => (reg_setReg_ne m r q v (ne_of_mem_of_not_mem hr hq).symm).trans (h.regs q hq) }

theorem setCond (h : Keeps rs latch s m) (c : BitVec 3) : Keeps rs latch s (m.setCond c) := { h with }

theorem writeDest (h : Keeps rs latch s m) {dr : Reg} (hdr : dr ∈ rs) (v : Word) :
    Keeps rs latch s (m.writeDest dr v) :=
  (h.setReg hdr v).setCond (condOf v)

theorem setPc (h : Keeps rs latch s m) (a : Word) : Keeps rs latch s (m.setPc a) := { h with }

theorem memWrite (h : Keeps rs latch s m) (a v : Word) : Keeps rs latch s (m.memWrite a v) :=
  { h with form := fun hs => memWrite_wf (h.form hs) a v }

theorem emit (h : Keeps rs latch s m) (es : List OutEvent) : Keeps rs latch s (m.emit es) :=
  { h with
    out := by
      obtain ⟨es', hout⟩ := h.out
      exact ⟨es' ++ es, by rw [emit_out, hout, List.append_assoc]⟩ }

theorem setKbq (h : Keeps rs latch s m) {c : Byte} {q : List Byte} (hq : m.kbq = c :: q) :
    Keeps rs latch s (m.setKbq q) :=
  { h with
    kbq := by
      obtain ⟨taken, hkbq⟩ := h.kbq
      exact ⟨taken ++ [c], by rw [hkbq, hq, setKbq_kbq, List.append_assoc]; rfl⟩ }

theorem setPrompted (h : Keeps rs true s m) (b : Bool) : Keeps rs true s (m.setPrompted b) :=
  { h with prompted := nofun }

theorem haltWith (h : Keeps rs latch s m) {c : HaltCause} (hc : c ≠ .none) : Keeps rs latch s (m.haltWith c) :=
  { h with cause := fun _ => iff_of_false hc nofun }

theorem of_scan (rs : List Reg) (latch : Bool) (k : ScanKeeps s m) : Keeps rs latch s m where
  regs q _ := congrArg (Regs.get · q) k.regs
  prompted _ := k.control.prompted
  config := k.control.config
  stopReq := k.control.stopReq
  out := by
    obtain ⟨bs, hout⟩ := k.out
    exact ⟨bs.map .write, hout⟩
  kbq := by
    obtain ⟨n, hkbq⟩ := k.kbq
    exact ⟨s.kbq.take n, by rw [hkbq, List.take_append_drop]⟩
  form := k.form
  cause hs := by
    unfold CauseMatchesRun at hs ⊢
    rwa [k.control.haltCause, k.control.run]

/-- A scan, of which a single read is one. -/
theorem scan {t : State} (h : Keeps rs latch s m) (k : ScanKeeps m t) : Keeps rs latch s t :=
  h.trans (of_scan rs latch k)

theorem memRead (h : Keeps rs latch s m) (a : Word) : Keeps rs latch s (m.memRead a).2 :=
  h.scan (scanKeeps_memRead m a)

theorem prompt (h : Keeps rs true s m) : Keeps rs true s m.prompt := by
  unfold State.prompt
  split
  · exact h
  · exact (h.emit _).setPrompted true

end Keeps

/-! The handlers that branch or scan. -/

theorem keeps_execBr {mask : BitVec 3} {off9 : BitVec 9} {s t : State} (h : execBr mask off9 s = .next t) :
    Keeps [] false s t := by
  unfold execBr at h
  split at h <;> cases h <;> exact (Keeps.refl _ _ s).setPc _

theorem keeps_execGetc {s t : State} (h : execGetc s = .next t) : Keeps [.r7, .r0] false s t := by
  unfold execGetc at h
  split at h
  · cases h
    exact Keeps.refl _ _ s
  · next hq =>
    cases h
    exact ((((Keeps.refl _ _ s).setReg (by simp) _).setKbq hq).setReg (by simp) _).setPc _

theorem keeps_execIn {s t : State} (h : execIn s = .next t) : Keeps [.r7, .r0] true s t := by
  have hprompt := (Keeps.refl [.r7, .r0] true s).prompt
  unfold execIn at h
  split at h
  · cases h
    exact hprompt
  · next hq =>
    cases h
    exact (((((hprompt.emit _).setReg (by simp) _).setKbq hq).setReg (by simp) _).setPrompted false).setPc _

theorem keeps_putString {bytesOf : Word → List Byte} {s t : State} (h : putString bytesOf s = .next t) :
    Keeps [.r7] false s t := by
  rcases putString_cases bytesOf s with ⟨m, hscan, hnext⟩ | ⟨-, hstuck⟩
  · cases hnext.symm.trans h
    exact (((Keeps.refl _ _ s).setReg (by simp) _).scan (scanString_keeps hscan)).setPc _
  · cases hstuck.symm.trans h

/-! One instruction. -/

end Sys2Proof.Machine

namespace Sys2Proof

/-- Whether an instruction may write the latch PROMPTED: IN alone (10_state.md R29). -/
def Instr.writesPrompted : Instr → Bool
  | .inChar => true
  | .trap vec => decide (vec = 0x23#8)
  | _ => false

end Sys2Proof

namespace Sys2Proof.Machine

open Sys2Proof.Laws.EncodeOpcode (opcodeOf)

theorem keeps_execTrap {vec : BitVec 8} {s t : State} (h : execTrap vec s = .next t) :
    Keeps (Instr.trap vec).regWrites (Instr.trap vec).writesPrompted s t := by
  unfold execTrap at h
  split at h
  · exact keeps_execGetc h
  · cases h
    exact (((Keeps.refl _ _ s).setReg (by simp [Instr.regWrites]) _).emit _).setPc _
  · exact keeps_putString h
  · exact keeps_execIn h
  · exact keeps_putString h
  · cases h
    exact (((Keeps.refl _ _ s).setReg (by simp [Instr.regWrites]) _).haltWith (by decide)).setPc _
  · cases h
    exact (Keeps.refl _ _ s).haltWith nofun

/-- What every instruction keeps. -/
theorem exec_keeps {i : Instr} {s t : State} (h : exec i s = .next t) : Keeps i.regWrites i.writesPrompted s t := by
  have hrefl := Keeps.refl i.regWrites i.writesPrompted s
  cases i with
  | addReg | addImm | andReg | andImm | not | lea =>
    cases h
    exact (hrefl.writeDest (List.mem_singleton_self _) _).setPc _
  | ld | ldr =>
    cases h
    exact ((hrefl.memRead _).writeDest (List.mem_singleton_self _) _).setPc _
  | ldi =>
    cases h
    exact (((hrefl.memRead _).memRead _).writeDest (List.mem_singleton_self _) _).setPc _
  | st | str =>
    cases h
    exact (hrefl.memWrite _ _).setPc _
  | sti =>
    cases h
    exact ((hrefl.memRead _).memWrite _ _).setPc _
  | br => exact keeps_execBr h
  | ret | jmp =>
    cases h
    exact hrefl.setPc _
  | jsr | jsrr =>
    cases h
    exact (hrefl.setReg (List.mem_singleton_self _) _).setPc _
  | getc => exact keeps_execGetc h
  | out =>
    cases h
    exact ((hrefl.setReg (List.mem_singleton_self _) _).emit _).setPc _
  | puts | putsp => exact keeps_putString h
  | inChar => exact keeps_execIn h
  | halt =>
    cases h
    exact ((hrefl.setReg (List.mem_singleton_self _) _).haltWith (by decide)).setPc _
  | trap vec => exact keeps_execTrap h
  | rti | res =>
    cases h
    exact hrefl.haltWith nofun

/-! One step: the fetch is a read, and from then on the instruction decides. -/

theorem fetch_keeps (rs : List Reg) (latch : Bool) (s : State) : Keeps rs latch s s.fetch.2 :=
  (Keeps.refl rs latch s).memRead s.pc

/-- What every step keeps, with the registers and the latch of the current instruction. -/
theorem step_keeps {s t : State} (h : step s = .next t) : Keeps s.current.regWrites s.current.writesPrompted s t := by
  rcases step_cases s with ⟨-, hstep⟩ | ⟨-, -, hstep⟩ | ⟨-, hstep⟩
  · cases hstep.symm.trans h
    exact Keeps.refl _ _ s
  · cases hstep.symm.trans h
    exact (Keeps.refl _ _ s).haltWith nofun
  · exact (fetch_keeps _ _ s).trans (exec_keeps (hstep.symm.trans h))

/-- Settles O53: four of the things every step keeps. -/
theorem outGrowsAndKbqDrains : Obligations.OutGrowsAndKbqDrains := by
  unfold Obligations.OutGrowsAndKbqDrains
  intro s t h
  have hkeeps := step_keeps h
  exact ⟨hkeeps.out, hkeeps.kbq, hkeeps.stopReq, hkeeps.config⟩

/-! PROMPTED: only IN writes it, and IN is never fetched from the status cell, whose polled value is no TRAP word. -/

theorem decode_ne_trap_of_mem {vec : BitVec 8} (hvec : vec ∈ routineVectors) (w : Word) : decode w ≠ .trap vec := by
  rw [ne_eq, decode_eq_trap_iff]
  exact fun ⟨_, _, hnot⟩ => hnot hvec

theorem writesPrompted_decode_iff (w : Word) : (decode w).writesPrompted = true ↔ decode w = .inChar := by
  constructor
  · intro h
    unfold Instr.writesPrompted at h
    split at h
    · assumption
    · next vec htrap =>
      rw [of_decide_eq_true h] at htrap
      exact absurd htrap (decode_ne_trap_of_mem (by decide) w)
    · cases h
  · intro h
    rw [h]
    rfl

theorem opcodeField_zext8 (c : Byte) : opcodeField (zext8 c) = 0x0#4 := by
  decide +revert

/-- A poll leaves 0x0000 or 0x8000 in the status cell, or a character where the two addresses are the same. -/
theorem opcodeField_memRead_status_ne (s : State) : opcodeField (s.memRead s.config.kbsrAddr).1 ≠ 0xF#4 := by
  rw [memRead_status]
  match hkbq : s.kbq with
  | [] =>
    rw [peek_status_pollKeyboard_nil hkbq]
    exact (by decide : opcodeField 0x0000#16 ≠ 0xF#4)
  | c :: q =>
    rw [peek_pollKeyboard_cons hkbq, if_pos rfl]
    split
    · exact ne_of_eq_of_ne (opcodeField_zext8 c) (by decide)
    · exact (by decide : opcodeField 0x8000#16 ≠ 0xF#4)

/-- A TRAP is fetched from a plain cell. -/
theorem pc_ne_status_of_trap {s : State} (h : opcodeOf s.current = 0xF#4) : s.pc ≠ s.config.kbsrAddr := by
  intro hpc
  unfold State.current State.fetch at h
  rw [opcodeOf_decode, hpc] at h
  exact opcodeField_memRead_status_ne s h

/-- Away from the status cell the fetch is the cell, with no side effect. -/
theorem fetch_plain {s : State} (h : s.pc ≠ s.config.kbsrAddr) : s.fetch = (s.peek s.pc, s) := memRead_plain h

theorem current_plain {s : State} (h : s.pc ≠ s.config.kbsrAddr) : s.current = decode (s.peek s.pc) := by
  unfold State.current
  rw [fetch_plain h]

/-- PROMPTED only at an IN trap, which does not lie in the status cell. -/
def WaitsInTrap (s : State) : Prop :=
  s.prompted = true → s.pc ≠ s.config.kbsrAddr ∧ decode (s.peek s.pc) = .inChar

theorem prompt_pc (s : State) : s.prompt.pc = s.pc := by unfold State.prompt; split <;> rfl
theorem prompt_peek (s : State) (a : Word) : s.prompt.peek a = s.peek a := by unfold State.prompt; split <;> rfl
theorem prompt_config (s : State) : s.prompt.config = s.config := by unfold State.prompt; split <;> rfl

/-- IN waits where it stands, or completes and clears PROMPTED. -/
theorem waitsInTrap_execIn {s t : State} (hpc : s.pc ≠ s.config.kbsrAddr) (hin : decode (s.peek s.pc) = .inChar)
    (h : execIn s = .next t) : WaitsInTrap t := by
  intro ht
  unfold execIn at h
  split at h
  · cases h
    rw [prompt_pc, prompt_config, prompt_peek]
    exact ⟨hpc, hin⟩
  · cases h
    cases ht

theorem waitsInTrap_step {s t : State} (hs : WaitsInTrap s) (h : step s = .next t) : WaitsInTrap t := by
  rcases step_cases s with ⟨-, hstep⟩ | ⟨-, -, hstep⟩ | ⟨-, hstep⟩
  · cases hstep.symm.trans h
    exact hs
  · cases hstep.symm.trans h
    exact hs
  · rw [h] at hstep
    by_cases hin : s.current = .inChar
    · have hpc : s.pc ≠ s.config.kbsrAddr := pc_ne_status_of_trap (by rw [hin]; rfl)
      rw [hin, fetch_plain hpc] at hstep
      exact waitsInTrap_execIn hpc (current_plain hpc ▸ hin) hstep.symm
    · intro ht
      have hlatch : s.current.writesPrompted = false :=
        Bool.eq_false_of_not_eq_true (mt (writesPrompted_decode_iff s.fetch.1).mp hin)
      have hprompted : s.prompted = true := ((step_keeps h).prompted hlatch).symm.trans ht
      obtain ⟨hpc, hcell⟩ := hs hprompted
      exact absurd ((current_plain hpc).trans hcell) hin

/-- Settles O56: three clauses are among the things every step keeps; PROMPTED is left set only by an IN that holds, with
PC and memory as they were. -/
theorem stepKeepsInvariant : Obligations.StepKeepsInvariant := by
  unfold Obligations.StepKeepsInvariant
  intro s t hinv h
  have hkeeps := step_keeps h
  exact
    { memForm := hkeeps.form hinv.memForm
      devices := hkeeps.config ▸ hinv.devices
      cause := hkeeps.cause hinv.cause
      waitingIn := waitsInTrap_step hinv.waitingIn h }

/-! ### The invariant along every run (10_state.md R37, 40_instruction_cycle.md R121) -/

/-- Settles O55: the initial memory is canonical, the machine Runs with cause NONE, and PROMPTED is clear. -/
theorem resetMeetsInvariant : Obligations.ResetMeetsInvariant := by
  unfold Obligations.ResetMeetsInvariant
  have hreset (c : Config) (a : ResetArgs) (hc : c.wf) (hmem : a.memInit.wf = true) : (State.resetWith c a).Inv :=
    { memForm := hmem
      devices := hc
      cause := iff_of_true rfl rfl
      waitingIn := nofun }
  exact ⟨hreset, hreset Config.standard ResetArgs.standard (by decide) rfl⟩

end Sys2Proof.Machine

/-! ### The three kinds of step, one equation each (40_instruction_cycle.md R110 to R112) -/

namespace Sys2Proof.Machine

theorem step_of_halted {s : State} (h : s.run = .halted) : step s = .next s := by
  unfold step
  rw [h]

theorem step_of_stopReq {s : State} (hrun : s.run = .running) (hstop : s.stopReq = true) :
    step s = .next (s.haltWith .extStop) := by
  unfold step
  rw [hrun, hstop]
  rfl

theorem step_of_fetches {s : State} (h : s.fetches) : step s = exec s.current s.fetch.2 := by
  obtain ⟨hrun, hstop⟩ := h
  unfold step
  rw [hrun, hstop]
  rfl

/-- Away from the status cell a step is the instruction in the cell at PC, run from the same state. -/
theorem step_plain {s : State} (h : s.fetches) (hpc : s.pc ≠ s.config.kbsrAddr) :
    step s = exec (decode (s.peek s.pc)) s := by
  rw [step_of_fetches h, current_plain hpc, fetch_plain hpc]

end Sys2Proof.Machine

/-! ### COND holds exactly one flag (10_state.md R37 (a)) -/

namespace Sys2Proof.Machine

/-- A destination-writing opcode completes from every state, with the flags of what it wrote. -/
theorem exec_oneFlag_of_dest {i : Instr} {dr : Reg} (hdest : i.dest? = some dr) (s : State) :
    ∃ t, exec i s = .next t ∧ OneFlag t.cond := by
  obtain ⟨m, v, hexec⟩ := exec_of_dest hdest s
  exact ⟨_, hexec.trans (complete_eq _), oneFlag_condOf v⟩

theorem exec_keeps_oneFlag {i : Instr} {s t : State} (hs : OneFlag s.cond) (h : exec i s = .next t) :
    OneFlag t.cond := by
  cases hdest : i.dest? with
  | none => rwa [exec_cond_of_no_dest hdest h]
  | some dr =>
    obtain ⟨t', hexec, hflag⟩ := exec_oneFlag_of_dest hdest s
    cases hexec.symm.trans h
    exact hflag

theorem step_keeps_oneFlag {s t : State} (hs : OneFlag s.cond) (h : step s = .next t) : OneFlag t.cond := by
  by_cases hfetch : s.fetches
  · rw [step_of_fetches hfetch] at h
    have hm : OneFlag s.fetch.2.cond := (memRead_cond s s.pc).symm ▸ hs
    exact exec_keeps_oneFlag hm h
  · rwa [step_cond_of_not_fetches hfetch h]

theorem hostMove_cond (m : HostMove) (s : State) : (hostMove m s).cond = s.cond := by cases m <;> rfl

/-- Settles O54: the seven writers leave the flags of a value, everything else leaves COND. -/
theorem exactlyOneFlagForEver : Obligations.ExactlyOneFlagForEver := by
  unfold Obligations.ExactlyOneFlagForEver
  exact ⟨fun _ _ => step_keeps_oneFlag, fun _ _ s hdest => exec_oneFlag_of_dest hdest s,
    fun m s hs => (hostMove_cond m s).symm ▸ hs⟩

end Sys2Proof.Machine

/-! ### Halted, and the invariant along every run (10_state.md R37; 40_instruction_cycle.md R111, R121) -/

namespace Sys2Proof.Machine

/-- A state that a step leaves as it is, any number of steps leaves as it is. -/
theorem run_of_step_eq_self {M : Host.Core} {s : M.State} (h : M.step s = .next s) (k : Nat) : M.run k s = .next s := by
  induction k with
  | zero => rfl
  | succ k ih =>
    unfold Host.Core.run
    rw [h]
    exact ih

/-- Settles O47: a step answers the same state, and so does a run, by induction on its length. -/
theorem haltedStepsChangeNothing : Obligations.HaltedStepsChangeNothing := by
  unfold Obligations.HaltedStepsChangeNothing
  exact fun s k h =>
    ⟨step_of_halted h, run_of_step_eq_self (M := Sys2Proof.core) (step_of_halted h) k⟩

theorem hostMove_run (m : HostMove) (s : State) : (hostMove m s).run = s.run := by cases m <;> rfl

theorem hostMove_config (m : HostMove) (s : State) : (hostMove m s).config = s.config := by cases m <;> rfl

/-- The HOST touches KBQ and the stop input alone, which the invariant does not mention. -/
theorem hostMove_inv (m : HostMove) {s : State} (h : s.Inv) : (hostMove m s).Inv := by
  cases m with
  | appendKey b => exact ⟨h.memForm, h.devices, h.cause, h.waitingIn⟩
  | driveStop level => exact ⟨h.memForm, h.devices, h.cause, h.waitingIn⟩

/-- A Halted machine has a cause, and every cause is one of a normal or of a fatal end (R120). -/
theorem ended_of_halted {s : State} (hinv : s.Inv) (h : s.run = .halted) : s.endedNormally ∨ s.endedFatally := by
  have hcause : s.haltCause ≠ .none := by
    intro hnone
    cases h.symm.trans (hinv.cause.mp hnone)
  cases hc : s.haltCause with
  | none => exact absurd hc hcause
  | haltTrap | extStop => exact .inl ⟨h, by simp [hc]⟩
  | errRti | errRes | errBadTrap => exact .inr ⟨h, by simp [hc]⟩

theorem reachable_keeps {c : Config} {a : ResetArgs} (hc : c.wf) (hmem : a.memInit.wf = true) {s : State}
    (h : Reachable c a s) : s.Inv ∧ s.config = c ∧ (OneFlag a.resetCond → OneFlag s.cond) := by
  induction h with
  | start => exact ⟨resetMeetsInvariant.1 c a hc hmem, rfl, id⟩
  | core _ hstep ih =>
    obtain ⟨hinv, hconfig, hflag⟩ := ih
    exact ⟨stepKeepsInvariant _ _ hinv hstep, (step_keeps hstep).config.trans hconfig,
      fun ha => step_keeps_oneFlag (hflag ha) hstep⟩
  | host m _ ih =>
    obtain ⟨hinv, hconfig, hflag⟩ := ih
    exact ⟨hostMove_inv m hinv, (hostMove_config m _).trans hconfig, fun ha => (hostMove_cond m _).symm ▸ hflag ha⟩

/-- Settles O57: the invariant, the parameters and the flags by induction on the run; Halted stays so because a step of a
Halted machine does nothing and the HOST does not write RUN. -/
theorem reachableStatesMeetInvariant : Obligations.ReachableStatesMeetInvariant := by
  unfold Obligations.ReachableStatesMeetInvariant
  intro c a s hc hmem hreach
  obtain ⟨hinv, hconfig, hflag⟩ := reachable_keeps hc hmem hreach
  refine ⟨hinv, hconfig, hflag, fun hhalted => ⟨ended_of_halted hinv hhalted, step_of_halted hhalted, fun m => ?_⟩⟩
  have hmove : (hostMove m s).run = .halted := (hostMove_run m s).trans hhalted
  exact ⟨hmove, step_of_halted hmove⟩

/-! ### The reset and the stop request (10_state.md R36; 40_instruction_cycle.md R110, R112) -/

/-- Settles O51: the reset puts each argument in its field. -/
theorem resetStateValues : Obligations.ResetStateValues := by
  unfold Obligations.ResetStateValues
  refine ⟨fun c a r => ?_, fun c a => ⟨rfl, rfl, fun _ => rfl, rfl, rfl, rfl, rfl, rfl⟩, rfl, rfl, fun _ => rfl⟩
  cases r <;> rfl

theorem haltedOnly_haltWith (c : HaltCause) (s : State) : HaltedOnly c s (s.haltWith c) where
  run := rfl
  haltCause := rfl
  regs _ _ := rfl
  pc := rfl
  cond := rfl
  mem _ _ := rfl
  ports := ⟨rfl, rfl⟩
  prompted := rfl
  stopReq := rfl
  config := rfl

/-- Settles O48: the request is looked at before the fetch, and entering Halted writes RUN and HALT_CAUSE alone. -/
theorem stopRequestWins : Obligations.StopRequestWins := by
  unfold Obligations.StopRequestWins
  exact fun s hrun hstop => ⟨_, step_of_stopReq hrun hstop, haltedOnly_haltWith .extStop s⟩

/-- Settles O46: a step of a machine that fetches is the execution of what it fetched. -/
theorem stepRunsDecodedInstruction : Obligations.StepRunsDecodedInstruction := by
  unfold Obligations.StepRunsDecodedInstruction
  refine fun s h => ⟨step_of_fetches h, fun i hpc hi => ?_⟩
  rw [step_plain h hpc, hi]

end Sys2Proof.Machine

/-! ### Every word against its decoding (30_encoding.md R86, R87) -/

namespace Sys2Proof

open Sys2Proof.Machine

/-! A field put back where it was read is the word under the field's mask. -/

theorem place_extractLsb' (w : Word) (lo n : Nat) :
    place (w.extractLsb' lo n) lo = w &&& place (BitVec.allOnes n) lo := by
  apply BitVec.eq_of_getLsbD_eq
  intro i hi
  by_cases hlo : i < lo
  · simp [place, hlo]
  · have hback : lo + (i - lo) = i := by omega
    simp [place, hi, hlo, hback, Bool.and_comm]

@[simp] theorem Reg.field_ofField (f : BitVec 3) : (Reg.ofField f).field = f := by
  decide +revert

theorem place_opcodeField (w : Word) : place (opcodeField w) 12 = w &&& 0xF000#16 := place_extractLsb' w 12 4
theorem place_regField11 (w : Word) : place (regField11 w).field 9 = w &&& 0x0E00#16 := by
  rw [regField11, Reg.field_ofField]
  exact place_extractLsb' w 9 3
theorem place_regField8 (w : Word) : place (regField8 w).field 6 = w &&& 0x01C0#16 := by
  rw [regField8, Reg.field_ofField]
  exact place_extractLsb' w 6 3
theorem place_regField2 (w : Word) : place (regField2 w).field 0 = w &&& 0x0007#16 := by
  rw [regField2, Reg.field_ofField]
  exact place_extractLsb' w 0 3
theorem place_maskField (w : Word) : place (maskField w) 9 = w &&& 0x0E00#16 := place_extractLsb' w 9 3
theorem place_imm5Field (w : Word) : place (imm5Field w) 0 = w &&& 0x001F#16 := place_extractLsb' w 0 5
theorem place_off6Field (w : Word) : place (off6Field w) 0 = w &&& 0x003F#16 := place_extractLsb' w 0 6
theorem place_off9Field (w : Word) : place (off9Field w) 0 = w &&& 0x01FF#16 := place_extractLsb' w 0 9
theorem place_off11Field (w : Word) : place (off11Field w) 0 = w &&& 0x07FF#16 := place_extractLsb' w 0 11
theorem place_vectorField (w : Word) : place (vectorField w) 0 = w &&& 0x00FF#16 := place_extractLsb' w 0 8

/-! The two mode bits, as fields of one bit. -/

theorem ofBool_getLsbD (w : Word) (k : Nat) : BitVec.ofBool (w.getLsbD k) = w.extractLsb' k 1 := by
  apply BitVec.eq_of_getLsbD_eq
  intro i hi
  obtain rfl : i = 0 := by omega
  simp

theorem place_immediateMode (w : Word) : place (BitVec.ofBool (immediateMode w)) 5 = w &&& 0x0020#16 := by
  rw [immediateMode, ofBool_getLsbD]
  exact place_extractLsb' w 5 1

theorem place_jsrMode (w : Word) : place (BitVec.ofBool (jsrMode w)) 11 = w &&& 0x0800#16 := by
  rw [jsrMode, ofBool_getLsbD]
  exact place_extractLsb' w 11 1

/-! The word rebuilt from its fields, format by format (R83): what is missing is what the format ignores. -/

theorem encOpr_fields {w : Word} (hmode : immediateMode w = false) :
    encOpr (opcodeField w) (regField11 w) (regField8 w) (regField2 w) = w &&& 0xFFE7#16 := by
  have hbit : 0#16 = w &&& 0x0020#16 := by
    rw [← place_immediateMode, hmode]
    rfl
  rw [encOpr, ← BitVec.or_zero (x := place (regField2 w).field 0), hbit]
  simp only [place_opcodeField, place_regField11, place_regField8, place_regField2, ← BitVec.and_or_distrib_left]
  rfl

theorem encOpi_fields {w : Word} (hmode : immediateMode w = true) :
    encOpi (opcodeField w) (regField11 w) (regField8 w) (imm5Field w) = w := by
  have hbit : place 1#1 5 = w &&& 0x0020#16 := by
    rw [← place_immediateMode, hmode]
    rfl
  rw [encOpi, hbit]
  simp only [place_opcodeField, place_regField11, place_regField8, place_imm5Field, ← BitVec.and_or_distrib_left]
  exact BitVec.and_allOnes

theorem encPc9_fields (w : Word) : encPc9 (opcodeField w) (maskField w) (off9Field w) = w := by
  simp only [encPc9, place_opcodeField, place_maskField, place_off9Field, ← BitVec.and_or_distrib_left]
  exact BitVec.and_allOnes

theorem encBase6_fields (w : Word) : encBase6 (opcodeField w) (regField11 w) (regField8 w) (off6Field w) = w := by
  simp only [encBase6, place_opcodeField, place_regField11, place_regField8, place_off6Field,
    ← BitVec.and_or_distrib_left]
  exact BitVec.and_allOnes

theorem encBase_fields (w : Word) : encBase (opcodeField w) (regField8 w) = w &&& 0xF1C0#16 := by
  simp only [encBase, place_opcodeField, place_regField8, ← BitVec.and_or_distrib_left]
  rfl

theorem field_regField11 (w : Word) : (regField11 w).field = maskField w := Reg.field_ofField _

theorem encode_not_fields {w : Word} (h : opcodeField w = 0x9#4) :
    encode (.not (regField11 w) (regField8 w)) &&& 0xFFC0#16 = w &&& 0xFFC0#16 := by
  have hrebuilt : encode (.not (regField11 w) (regField8 w)) = w &&& 0xFFC0#16 ||| 0x003F#16 := by
    simp only [encode, ← h, place_opcodeField, place_regField11, place_regField8, ← BitVec.and_or_distrib_left]
    rfl
  rw [hrebuilt, BitVec.and_comm, BitVec.and_or_distrib_left, BitVec.and_comm, BitVec.and_assoc]
  exact BitVec.or_zero

theorem encBase_jsrr_fields {w : Word} (hmode : jsrMode w = false) :
    encBase (opcodeField w) (regField8 w) = w &&& 0xF9C0#16 := by
  have hbit : 0#16 = w &&& 0x0800#16 := by
    rw [← place_jsrMode, hmode]
    rfl
  rw [← BitVec.or_zero (x := encBase (opcodeField w) (regField8 w)), encBase_fields, hbit,
    ← BitVec.and_or_distrib_left]
  rfl

theorem encode_jsr_fields {w : Word} (h : opcodeField w = 0x4#4) (hmode : jsrMode w = true) :
    encode (.jsr (off11Field w)) = w := by
  have hbit : place 1#1 11 = w &&& 0x0800#16 := by
    rw [← place_jsrMode, hmode]
    rfl
  simp only [encode, ← h, hbit, place_opcodeField, place_off11Field, ← BitVec.and_or_distrib_left]
  exact BitVec.and_allOnes

theorem encTrap_fields {w : Word} (h : opcodeField w = 0xF#4) : encTrap (vectorField w) = w &&& 0xF0FF#16 := by
  simp only [encTrap, ← h, place_opcodeField, place_vectorField, ← BitVec.and_or_distrib_left]
  rfl

theorem encode_decodeJmp (baseR : Reg) : encode (decodeJmp baseR) = encBase 0xC#4 baseR := by cases baseR <;> rfl

theorem ignoredBits_decodeJmp (baseR : Reg) : ignoredBits (decodeJmp baseR) = 0x0E3F#16 := by cases baseR <;> rfl

theorem wf_decodeJmp (baseR : Reg) : (decodeJmp baseR).wf = true := by cases baseR <;> rfl

theorem encode_decodeTrap (vec : BitVec 8) : encode (decodeTrap vec) = encTrap vec := by
  unfold decodeTrap
  split <;> rfl

theorem ignoredBits_decodeTrap (vec : BitVec 8) : ignoredBits (decodeTrap vec) = 0x0F00#16 := by
  unfold decodeTrap
  split <;> rfl

theorem wf_decodeTrap (vec : BitVec 8) : (decodeTrap vec).wf = true := by
  by_cases hvec : vec ∈ routineVectors
  · fin_cases hvec <;> rfl
  · rw [decodeTrap_of_not_mem hvec]
    simpa [Instr.wf] using hvec

/-- An instruction is a word's reading, up to the bits its format ignores. -/
def Reads (w : Word) (i : Instr) : Prop := i.wf = true ∧ (encode i ^^^ w) &&& ~~~ignoredBits i = 0#16

theorem xor_and_distrib (x y m : Word) : (x ^^^ y) &&& m = (x &&& m) ^^^ (y &&& m) := by
  apply BitVec.eq_of_getLsbD_eq
  intro i _
  simp [Bool.and_xor_distrib_right]

theorem xor_and_eq_zero {x y m : Word} (h : x &&& m = y &&& m) : (x ^^^ y) &&& m = 0#16 := by
  rw [xor_and_distrib, h, BitVec.xor_self]

theorem reads_of_encode_eq {w : Word} {i : Instr} (hwf : i.wf = true) (h : encode i = w) : Reads w i :=
  ⟨hwf, xor_and_eq_zero (by rw [h])⟩

theorem reads_of_encode_and_eq (m : Word) {w : Word} {i : Instr} (hwf : i.wf = true)
    (h : encode i &&& m = w &&& m) (hm : ~~~ignoredBits i = m) : Reads w i :=
  ⟨hwf, xor_and_eq_zero (by rw [hm, h])⟩

theorem reads_of_encode_eq_and (m : Word) {w : Word} {i : Instr} (hwf : i.wf = true) (h : encode i = w &&& m)
    (hm : ~~~ignoredBits i = m) : Reads w i :=
  reads_of_encode_and_eq m hwf (by rw [h, BitVec.and_assoc, BitVec.and_self]) hm

/-- Every word is read by its decoding, arm by arm of the decoder. -/
theorem reads_decode (w : Word) : Reads w (decode w) := by
  unfold decode
  split
  case h_1 h => exact reads_of_encode_eq rfl (by rw [encode, ← h, encPc9_fields])
  case h_3 h | h_4 h | h_11 h | h_12 h | h_15 h =>
    exact reads_of_encode_eq rfl (by rw [encode, field_regField11, ← h, encPc9_fields])
  case h_7 h | h_8 h => exact reads_of_encode_eq rfl (by rw [encode, ← h, encBase6_fields])
  case h_2 h | h_6 h =>
    split
    · next hmode => exact reads_of_encode_eq rfl (by rw [encode, ← h, encOpi_fields hmode])
    · next hmode =>
      exact reads_of_encode_eq_and 0xFFE7#16 rfl
        (by rw [encode, ← h, encOpr_fields (Bool.eq_false_of_not_eq_true hmode)]) (by rw [ignoredBits]; rfl)
  case h_5 h =>
    split
    · next hmode => exact reads_of_encode_eq rfl (encode_jsr_fields h hmode)
    · next hmode =>
      exact reads_of_encode_eq_and 0xF9C0#16 rfl
        (by rw [encode, ← h, encBase_jsrr_fields (Bool.eq_false_of_not_eq_true hmode)]) (by rw [ignoredBits]; rfl)
  case h_9 h | h_14 h => exact reads_of_encode_eq_and 0xF000#16 rfl (by rw [encode, ← h, place_opcodeField]) rfl
  case h_10 h => exact reads_of_encode_and_eq 0xFFC0#16 rfl (encode_not_fields h) (by rw [ignoredBits]; rfl)
  case h_13 h =>
    exact reads_of_encode_eq_and 0xF1C0#16 (wf_decodeJmp _) (by rw [encode_decodeJmp, ← h, encBase_fields])
      (by rw [ignoredBits_decodeJmp]; rfl)
  case h_16 => -- the arms before it leave only opcode 0xF
    have h : opcodeField w = 0xF#4 := by
      simp only [imp_false] at *
      bv_omega
    exact reads_of_encode_eq_and 0xF0FF#16 (wf_decodeTrap _) (by rw [encode_decodeTrap, encTrap_fields h])
      (by rw [ignoredBits_decodeTrap]; rfl)

/-- Settles O3: encoding the decoded fields rebuilds the word under the mask of the bits its format does not ignore. -/
theorem encodeDecodeUpToIgnoredBits : Obligations.EncodeDecodeUpToIgnoredBits := reads_decode

/-! ### Ignored bits (30_encoding.md R87) -/

/-! A change outside a mask is seen neither by a match under the mask nor by a field the mask covers. -/

theorem and_xor_of_and_eq_zero {w v mask : Word} (hv : v &&& mask = 0#16) : (w ^^^ v) &&& mask = w &&& mask := by
  rw [xor_and_distrib, hv, BitVec.xor_zero]

theorem and_eq_zero_of_submask {v mask sub : Word} (hsub : mask &&& sub = sub) (hv : v &&& mask = 0#16) :
    v &&& sub = 0#16 := by
  rw [← hsub, ← BitVec.and_assoc, hv, BitVec.zero_and]

theorem extractLsb'_xor_of_and_eq_zero {w v mask : Word} {lo n : Nat}
    (hmask : mask.extractLsb' lo n = BitVec.allOnes n) (hv : v &&& mask = 0#16) :
    (w ^^^ v).extractLsb' lo n = w.extractLsb' lo n := by
  have hfield : v.extractLsb' lo n = 0#n := by
    rw [← BitVec.and_allOnes (x := v.extractLsb' lo n), ← hmask, ← BitVec.extractLsb'_and, hv]
    simp
  rw [BitVec.extractLsb'_xor, hfield, BitVec.xor_zero]

section

variable {w v mask : Word} (hv : v &&& mask = 0#16)
include hv

theorem match_xor {sub pattern : Word} (hsub : mask &&& sub = sub) (h : w &&& sub = pattern) :
    (w ^^^ v) &&& sub = pattern :=
  (and_xor_of_and_eq_zero (and_eq_zero_of_submask hsub hv)).trans h

theorem opcodeField_xor (hmask : opcodeField mask = 0xF#4) : opcodeField (w ^^^ v) = opcodeField w :=
  extractLsb'_xor_of_and_eq_zero hmask hv

theorem regField11_xor (hmask : mask.extractLsb' 9 3 = BitVec.allOnes 3) : regField11 (w ^^^ v) = regField11 w :=
  congrArg Reg.ofField (extractLsb'_xor_of_and_eq_zero hmask hv)

theorem regField8_xor (hmask : mask.extractLsb' 6 3 = BitVec.allOnes 3) : regField8 (w ^^^ v) = regField8 w :=
  congrArg Reg.ofField (extractLsb'_xor_of_and_eq_zero hmask hv)

theorem regField2_xor (hmask : mask.extractLsb' 0 3 = BitVec.allOnes 3) : regField2 (w ^^^ v) = regField2 w :=
  congrArg Reg.ofField (extractLsb'_xor_of_and_eq_zero hmask hv)

theorem vectorField_xor (hmask : vectorField mask = 0xFF#8) : vectorField (w ^^^ v) = vectorField w :=
  extractLsb'_xor_of_and_eq_zero hmask hv

end

/-- Words of JSRR, whichever bits they ignore; the mask leaves bit [11] to tell JSRR from JSR. -/
theorem decode_jsrr_of_match {w : Word} (h : w &&& 0xF800#16 = 0x4000#16) : decode w = .jsrr (regField8 w) := by
  have hmode : jsrMode w = false := jsrMode_of_match rfl h
  rw [decode_of_jsr_opcode (opcodeField_of_match rfl h), hmode, if_neg Bool.false_ne_true]

theorem decode_rti_of_match {w : Word} (h : w &&& 0xF000#16 = 0x8000#16) : decode w = .rti :=
  (decode_eq_rti_iff w).mpr (opcodeField_of_match rfl h)

theorem decode_res_of_match {w : Word} (h : w &&& 0xF000#16 = 0xD000#16) : decode w = .res :=
  (decode_eq_res_iff w).mpr (opcodeField_of_match rfl h)

/-- Settles O5: the changed word matches the same table row, and every field the row's format has is the same. -/
theorem ignoredBitsChangeNothing : Obligations.IgnoredBitsChangeNothing := by
  unfold Obligations.IgnoredBitsChangeNothing
  intro w v
  refine ⟨fun h hv => ?_, fun h hv => ?_, fun h hv => ?_, fun h hv => ?_, fun h hv => ?_, fun h hv => ?_⟩
  · rcases h with h | h
    · rw [decode_addReg_of_match h, decode_addReg_of_match (match_xor hv rfl h), regField11_xor hv rfl,
        regField8_xor hv rfl, regField2_xor hv rfl]
    · rw [decode_andReg_of_match h, decode_andReg_of_match (match_xor hv rfl h), regField11_xor hv rfl,
        regField8_xor hv rfl, regField2_xor hv rfl]
  · rw [decode_not_of_match h, decode_not_of_match (match_xor hv rfl h), regField11_xor hv rfl, regField8_xor hv rfl]
  · have hop : opcodeField w = 0xC#4 := opcodeField_of_match rfl h
    rw [decode_of_jmp_opcode hop, decode_of_jmp_opcode ((opcodeField_xor hv rfl).trans hop), regField8_xor hv rfl]
  · rw [decode_jsrr_of_match h, decode_jsrr_of_match (match_xor hv rfl h), regField8_xor hv rfl]
  · have hop : opcodeField w = 0xF#4 := opcodeField_of_match rfl h
    rw [decode_of_trap_opcode hop, decode_of_trap_opcode ((opcodeField_xor hv rfl).trans hop), vectorField_xor hv rfl]
  · rcases h with h | h
    · rw [decode_rti_of_match h, decode_rti_of_match (match_xor hv rfl h)]
    · rw [decode_res_of_match h, decode_res_of_match (match_xor hv rfl h)]

/-! ### Sample words and the opcode table (30_encoding.md R85, R86) -/

/-- Settles O1: each word is decoded by evaluation. -/
theorem sampleWordsDecode : Obligations.SampleWordsDecode := by
  unfold Obligations.SampleWordsDecode
  decide

/-- The rows of the table for one opcode. -/
def rowsOf (op : BitVec 4) : List OpcodeRow := opcodeTable.filter fun r => opcodeField r.pattern == op

/-- Every row fixes the opcode, so only the rows of a word's opcode can match it. -/
theorem tableName_eq_rowsOf (w : Word) :
    tableName w = ((rowsOf (opcodeField w)).find? fun r => w &&& r.mask == r.pattern).map (·.name) := by
  have hmasks : ∀ r ∈ opcodeTable, opcodeField r.mask = 0xF#4 := by decide
  unfold tableName rowsOf
  rw [List.find?_filter]
  rw [List.find?_congr]
  intro r hr
  by_cases hmatch : w &&& r.mask = r.pattern
  · have hop : opcodeField w = opcodeField r.pattern := opcodeField_of_match (hmasks r hr) hmatch
    simp [hmatch, hop]
  · simp [hmatch]

section

variable {w : Word} {op : BitVec 4} (hop : opcodeField w = op)
include hop

theorem and_opcode_mask : w &&& 0xF000#16 = place op 12 := by
  rw [← hop, place_opcodeField]

/-- Under the opcode and one more field a word is the two of them, each in its place. -/
theorem and_opcode_or {m field : Word} (hm : w &&& m = field) : w &&& (0xF000#16 ||| m) = place op 12 ||| field := by
  rw [BitVec.and_or_distrib_left, and_opcode_mask hop, hm]

theorem tableName_of_one_row {name : String} (hrows : rowsOf op = [⟨name, place op 12, 0xF000#16⟩]) :
    tableName w = some name := by
  rw [tableName_eq_rowsOf, hop, hrows]
  simp [and_opcode_mask hop]

/-- ADD and AND have a row for each value of the mode bit, under one name. -/
theorem tableName_of_mode_rows {name : String}
    (hrows : rowsOf op = [⟨name, place op 12, 0xF020#16⟩, ⟨name, place op 12 ||| 0x0020#16, 0xF020#16⟩]) :
    tableName w = some name := by
  have hw : w &&& 0xF020#16 = place op 12 ||| place (BitVec.ofBool (immediateMode w)) 5 :=
    and_opcode_or hop (place_immediateMode w).symm
  rw [tableName_eq_rowsOf, hop, hrows]
  simp only [List.find?_cons, hw]
  cases immediateMode w with
  | false =>
    have hzero : place op 12 ||| place (BitVec.ofBool false) 5 = place op 12 := BitVec.or_zero
    rw [hzero, beq_self_eq_true]
    rfl
  | true =>
    have hone : place (BitVec.ofBool true) 5 = 0x0020#16 := rfl
    rw [hone, beq_self_eq_true]
    split <;> rfl

end

theorem tableName_of_jsr_opcode {w : Word} (hop : opcodeField w = 0x4#4) :
    tableName w = some (if jsrMode w then "JSR" else "JSRR") := by
  have hw : w &&& 0xF800#16 = 0x4000#16 ||| place (BitVec.ofBool (jsrMode w)) 11 :=
    and_opcode_or hop (place_jsrMode w).symm
  have hrows : rowsOf 0x4#4 = [⟨"JSR", 0x4800#16, 0xF800#16⟩, ⟨"JSRR", 0x4000#16, 0xF800#16⟩] := rfl
  rw [tableName_eq_rowsOf, hop, hrows]
  simp only [List.find?_cons, hw]
  cases jsrMode w <;> rfl

theorem tableName_of_jmp_opcode {w : Word} (hop : opcodeField w = 0xC#4) :
    tableName w = some (decodeJmp (regField8 w)).mnemonic := by
  have hw : w &&& 0xF1C0#16 = 0xC000#16 ||| place (regField8 w).field 6 :=
    and_opcode_or hop (place_regField8 w).symm
  have hw' : w &&& 0xF000#16 = 0xC000#16 := and_opcode_mask hop
  have hrows : rowsOf 0xC#4 = [⟨"RET", 0xC1C0#16, 0xF1C0#16⟩, ⟨"JMP", 0xC000#16, 0xF000#16⟩] := rfl
  rw [tableName_eq_rowsOf, hop, hrows]
  simp only [List.find?_cons, hw, hw']
  cases regField8 w <;> rfl

theorem encTrap_beq (vec vec' : BitVec 8) : (encTrap vec == encTrap vec') = (vec == vec') := by
  have hinj : encTrap vec = encTrap vec' ↔ vec = vec' := by
    refine ⟨fun h => ?_, congrArg encTrap⟩
    rw [← vectorField_encTrap vec, h, vectorField_encTrap]
  by_cases h : vec = vec' <;> simp [hinj, h]

theorem tableName_of_trap_opcode {w : Word} (hop : opcodeField w = 0xF#4) :
    tableName w = some (decodeTrap (vectorField w)).mnemonic := by
  have hw : w &&& 0xF0FF#16 = encTrap (vectorField w) := (encTrap_fields hop).symm
  have hw' : w &&& 0xF000#16 = 0xF000#16 := and_opcode_mask hop
  have hrows : rowsOf 0xF#4 = [⟨"GETC", encTrap 0x20#8, 0xF0FF#16⟩, ⟨"OUT", encTrap 0x21#8, 0xF0FF#16⟩,
    ⟨"PUTS", encTrap 0x22#8, 0xF0FF#16⟩, ⟨"IN", encTrap 0x23#8, 0xF0FF#16⟩, ⟨"PUTSP", encTrap 0x24#8, 0xF0FF#16⟩,
    ⟨"HALT", encTrap 0x25#8, 0xF0FF#16⟩, ⟨"TRAP", 0xF000#16, 0xF000#16⟩] := rfl
  rw [tableName_eq_rowsOf, hop, hrows]
  simp only [List.find?_cons, hw, hw', encTrap_beq]
  by_cases hvec : vectorField w ∈ routineVectors
  · generalize vectorField w = vec at hvec ⊢
    fin_cases hvec <;> rfl
  · rw [decodeTrap_of_not_mem hvec]
    simp only [routineVectors, List.mem_cons, List.not_mem_nil, or_false, not_or, ← beq_eq_false_iff_ne] at hvec
    simp [hvec, Instr.mnemonic]

/-- Settles O4: of the rows of the word's opcode, the one whose mode bit, base or vector the word has is the first match. -/
theorem opcodeTableNamesDecode : Obligations.OpcodeTableNamesDecode := by
  unfold Obligations.OpcodeTableNamesDecode
  intro w
  unfold decode
  split
  case h_2 h | h_6 h => split <;> exact tableName_of_mode_rows h rfl
  case h_5 h =>
    rw [tableName_of_jsr_opcode h]
    split <;> rfl
  case h_13 h => exact tableName_of_jmp_opcode h
  case h_16 => -- the arms before it leave only opcode 0xF
    refine tableName_of_trap_opcode ?_
    simp only [imp_false] at *
    bv_omega
  all_goals next h => exact tableName_of_one_row h rfl

end Sys2Proof

/-! ### JSRR (42_control.md R157) -/

namespace Sys2Proof.Machine

/-- With base R7 the base read after the link is the link itself. -/
theorem exec_jsrr_r7 (s : State) : exec (.jsrr .r7) s = completeAt s.link (s.pc + 1#16) := by
  have hbase : s.link.reg .r7 = s.pc + 1#16 := reg_setReg_same s .r7 s.nextPc
  rw [← hbase]
  rfl

/-- Settles O18: JSRR is a call, to the base where the link leaves it and to the link where it does not. -/
theorem jsrrLinksThenReadsBase : Obligations.JsrrLinksThenReadsBase := by
  unfold Obligations.JsrrLinksThenReadsBase
  refine ⟨fun _ => decode_jsrr_of_match, fun baseR s => ?_⟩
  by_cases hbase : baseR = .r7
  · rw [hbase, exec_jsrr_r7]
    obtain ⟨t, hnext, hlink, hpc, hframe⟩ := completeAt_link_next s (s.pc + 1#16)
    exact ⟨t, hnext, hlink, fun hne => absurd rfl hne, fun _ => hpc, hframe⟩
  · rw [exec_jsrr_of_ne hbase]
    obtain ⟨t, hnext, hlink, hpc, hframe⟩ := completeAt_link_next s (s.reg baseR)
    exact ⟨t, hnext, hlink, fun _ => hpc, fun heq => absurd heq hbase, hframe⟩

end Sys2Proof.Machine

/-! ### MemWrite, the device cells and stored words (20_memory.md R53 to R66, 44_store.md R194) -/

namespace Sys2Proof.Machine

theorem peek_memWrite_same (s : State) (a v : Word) : (s.memWrite a v).peek a = v := by
  rw [peek_memWrite, if_pos rfl]

theorem memKeptBut_memWrite (s : State) (a v : Word) : MemKeptBut [a] s (s.memWrite a v) := by
  intro b hb
  rw [peek_memWrite, if_neg (List.ne_of_not_mem_cons hb)]

/-- What a poll answers, where the two device addresses differ (R52). -/
theorem memRead_status_fst {s : State} (hwf : s.config.wf) :
    (s.memRead s.config.kbsrAddr).1 = if s.kbq = [] then 0x0000#16 else 0x8000#16 := by
  match hkbq : s.kbq with
  | [] => rw [memRead_status_nil hkbq, if_pos rfl]
  | c :: q => rw [memRead_status_cons hkbq hwf, if_neg (List.cons_ne_nil c q)]

/-- Settles O30: the poll after the store does not look at what the store put in the status cell, and with no character
pending it does not touch the data cell. -/
theorem memWriteIsPlain : Obligations.MemWriteIsPlain := by
  unfold Obligations.MemWriteIsPlain
  intro s a v
  refine ⟨⟨peek_memWrite_same s a v, memKeptBut_memWrite s a v, rfl, rfl, rfl, ⟨rfl, rfl, rfl, rfl, rfl⟩, ⟨rfl, rfl⟩⟩,
    memRead_status_fst (s := s.memWrite s.config.kbsrAddr v), fun hwf hnone => ?_⟩
  have hpoll := memRead_status_nil (s := s.memWrite s.config.kbdrAddr v) hnone
  rw [memWrite_config] at hpoll
  rw [hpoll, peek_pollKeyboard_nil (s := s.memWrite s.config.kbdrAddr v) hnone, memWrite_config,
    if_neg (Ne.symm hwf), peek_memWrite_same]

theorem exec_getc_of_nil {s : State} (h : s.kbq = []) : exec .getc s = .next s := by
  unfold exec execGetc
  rw [h]
  rfl

/-- Settles O29: a poll takes the head of KBQ and leaves the rest for the next poll and for GETC. -/
theorem keyboardDataIsPlainCell : Obligations.KeyboardDataIsPlainCell := by
  unfold Obligations.KeyboardDataIsPlainCell
  intro s hwf
  have hconfig := pollKeyboard_config s
  refine ⟨memRead_plain (Ne.symm hwf), fun c1 c2 q hkbq => ?_, fun c hkbq => ?_⟩
  · have hrest : s.pollKeyboard.kbq = c2 :: q := by rw [pollKeyboard_kbq, hkbq, List.tail_cons]
    have hsecond := memRead_status_cons hrest (hconfig ▸ hwf)
    have hdata := peek_data_pollKeyboard_cons hrest
    rw [hconfig] at hsecond hdata
    exact ⟨_, _, memRead_status_cons hkbq hwf, hsecond, by rw [pollKeyboard_kbq, hrest, List.tail_cons],
      by rw [hdata, toNat_zext8]⟩
  · have hrest : s.pollKeyboard.kbq = [] := by rw [pollKeyboard_kbq, hkbq, List.tail_cons]
    have hsecond := memRead_status_nil hrest
    rw [hconfig] at hsecond
    refine ⟨_, _, memRead_status_cons hkbq hwf, hsecond, ?_, exec_getc_of_nil hrest⟩
    rw [peek_pollKeyboard_nil hrest, hconfig, if_neg (Ne.symm hwf), peek_data_pollKeyboard_cons hkbq, toNat_zext8]

/-- The word 0x0000 is a BR whose mask names no flag: it only moves PC (42_control.md R153). -/
theorem exec_decode_zero (s : State) : exec (decode 0x0000#16) s = .next (s.setPc (s.pc + 1#16)) := by
  have hdecode : decode 0x0000#16 = .br 0b000#3 0#9 := by decide
  have hnot : ¬branchTaken 0b000#3 s.cond = true := by simp [branchTaken]
  rw [hdecode, exec_br_of_not_taken hnot]
  rfl

theorem exec_rti (s : State) : exec .rti s = .next (s.haltWith .errRti) := rfl

theorem exec_res (s : State) : exec .res s = .next (s.haltWith .errRes) := rfl

/-- Settles O31: the step runs what the poll answered, 0x0000 or 0x8000, in the state the poll left. -/
theorem fetchFromStatusCellPolls : Obligations.FetchFromStatusCellPolls := by
  unfold Obligations.FetchFromStatusCellPolls
  intro s hfetches hwf hpc
  have hstep := (stepRunsDecodedInstruction s hfetches).1
  rw [hpc] at hstep
  refine ⟨fun hnone => ⟨s.pollKeyboard.setPc (s.pc + 1#16), ?_, rfl, pollKeyboard_cond s,
      fun q _ => congrArg (Regs.get · q) (pollKeyboard_regs s), ?_, ?_, ?_, ?_⟩,
    fun c q hkbq => ⟨s.pollKeyboard.haltWith .errRti, ?_, rfl, rfl, pollKeyboard_pc s, pollKeyboard_cond s,
      fun q _ => congrArg (Regs.get · q) (pollKeyboard_regs s), ?_, ?_, ?_, ?_, pollKeyboard_out s,
      pollKeyboard_prompted s, pollKeyboard_stopReq s, pollKeyboard_config s⟩⟩
  · rw [hstep, memRead_status_nil hnone, exec_decode_zero, pollKeyboard_pc]
  · rw [hpc]
    exact peek_status_pollKeyboard_nil hnone
  · rw [hpc]
    exact memKeptBut_pollKeyboard_nil hnone
  · exact { controlKept_pollKeyboard s with }
  · exact { portsKept_pollKeyboard_nil hnone with }
  · have hrti : decode 0x8000#16 = .rti := by decide
    rw [hstep, memRead_status_cons hkbq hwf, hrti, exec_rti]
  · rw [hpc]
    exact peek_status_pollKeyboard_cons hkbq hwf
  · rw [haltWith_peek, peek_data_pollKeyboard_cons hkbq, toNat_zext8]
  · rw [hpc]
    exact memKeptBut_pollKeyboard s
  · rw [haltWith_kbq, pollKeyboard_kbq, hkbq, List.tail_cons]

/-- After each of the three stores its cell holds the stored word. -/
theorem peek_of_store {i : Instr} {a v : Word} {s t : State}
    (hstore : (∃ sr off9, i = .st sr off9 ∧ a = s.pcRelative off9 ∧ v = s.reg sr) ∨
      (∃ sr off9, i = .sti sr off9 ∧ a = (s.indirect off9).1 ∧ v = s.reg sr) ∨
      (∃ sr baseR off6, i = .str sr baseR off6 ∧ a = s.baseOffset baseR off6 ∧ v = s.reg sr))
    (h : exec i s = .next t) : t.peek a = v := by
  have hends (m : State) (hm : storeTo a v m = .next t) : t.peek a = v := by
    obtain ⟨t', hnext, hstored⟩ := storeTo_next a v m
    cases hnext.symm.trans hm
    exact hstored.cell
  rcases hstore with ⟨sr, off9, rfl, rfl, rfl⟩ | ⟨sr, off9, rfl, rfl, rfl⟩ | ⟨sr, baseR, off6, rfl, rfl, rfl⟩
  · exact hends s h
  · exact hends (s.indirect off9).2 ((exec_sti sr off9 s).symm.trans h)
  · exact hends s h

/-- Settles O32: the fetch from a plain cell reads the cell, which holds the stored word. -/
theorem storeSeenByNextFetch : Obligations.StoreSeenByNextFetch := by
  unfold Obligations.StoreSeenByNextFetch
  intro i a v s t hstore hexec hfetches hpc hplain
  have hcell : t.peek t.pc = v := hpc ▸ peek_of_store hstore hexec
  have hpc' : t.pc ≠ t.config.kbsrAddr := hpc ▸ hplain
  constructor
  · rw [fetch_plain hpc', hcell]
  · rw [step_plain hfetches hpc', hcell]

/-- A load from a plain cell completes with the cell's word in DR and its flags. -/
theorem loadFrom_plain {dr : Reg} {ea v : Word} {u : State} (hea : ea ≠ u.config.kbsrAddr) (hcell : u.peek ea = v) :
    ∃ w, loadFrom dr ea u = .next w ∧ w.reg dr = v ∧ FlagsOf v w.cond := by
  obtain ⟨w, hnext, hloaded⟩ := loadFrom_next dr ea u
  rw [memRead_plain hea, hcell] at hloaded
  exact ⟨w, hnext, hloaded.dest.dest, hloaded.dest.flags⟩

/-- A store, then a load from the same plain cell in any state with the memory the store left. -/
theorem storeTo_then_loadFrom (ea v : Word) (dr : Reg) (m : State) {u : State} (hea : ea ≠ u.config.kbsrAddr) :
    ∃ t, storeTo ea v m = .next t ∧ (MemKeptBut [] t u →
      u.peek ea = v ∧ ∃ w, loadFrom dr ea u = .next w ∧ w.reg dr = v ∧ FlagsOf v w.cond) := by
  obtain ⟨t, hnext, hstored⟩ := storeTo_next ea v m
  refine ⟨t, hnext, fun hkept => ?_⟩
  have hcell : u.peek ea = v := (hkept ea List.not_mem_nil).trans hstored.cell
  exact ⟨hcell, loadFrom_plain hea hcell⟩

/-- Settles O27: for each pair both instructions work on one plain cell; for STI and LDI the pointer cell is plain too, and
still holds the pointer when LDI reads it. -/
theorem storeThenLoadReadsBack : Obligations.StoreThenLoadReadsBack := by
  unfold Obligations.StoreThenLoadReadsBack
  intro sr dr s u hconfig
  refine ⟨fun o1 o2 haddr hplain => ?_, fun b1 b2 o1 o2 haddr hplain => ?_, fun o1 o2 hpointer haddr hplain => ?_⟩
  · rw [exec_st, pcRelative_eq, exec_ld, ← haddr]
    obtain ⟨t, hnext, hload⟩ := storeTo_then_loadFrom (s.pcPlus o1.toInt) (s.reg sr) dr s (hconfig ▸ hplain)
    exact ⟨t, hnext, fun hkept => (hload hkept).2⟩
  · rw [exec_str, baseOffset_eq, exec_ldr, ← haddr]
    obtain ⟨t, hnext, hload⟩ := storeTo_then_loadFrom (s.basePlus b1 o1.toInt) (s.reg sr) dr s (hconfig ▸ hplain)
    exact ⟨t, hnext, fun hkept => (hload hkept).2⟩
  · rw [exec_sti, indirect_eq, exec_ldi, memRead_plain hpointer, haddr]
    obtain ⟨t, hnext, hload⟩ := storeTo_then_loadFrom (u.peek (u.pcPlus o2.toInt)) (s.reg sr) dr
      (s.memRead (s.pcPlus o1.toInt)).2 (hconfig ▸ hplain)
    exact ⟨t, hnext, fun hkept => (hload hkept).2⟩

end Sys2Proof.Machine

/-! ### Images (20_memory.md R68; 70_reset_and_hazards.md R281) -/

namespace Sys2Proof.Machine

/-- While the address is below 0xFFFF, a word is stored and the rest goes on from the next address. -/
theorem Memory.loadWords_cons {lastCell : Bool} {a : Nat} (h : a < 0xFFFF) (w : Word) (ws : List Word) (m : Memory) :
    m.loadWords lastCell a (w :: ws) = (m.write a w).loadWords lastCell (a + 1) ws := by
  rw [Memory.loadWords, if_pos h]

theorem Memory.read_loadWords_outside (lastCell : Bool) {ws : List Word} {a b : Nat} (m : Memory)
    (hfits : a + ws.length ≤ 0xFFFF) (hb : b < a ∨ a + ws.length ≤ b) :
    (m.loadWords lastCell a ws).read b = m.read b := by
  induction ws generalizing a m with
  | nil => rfl
  | cons w ws ih =>
    rw [List.length_cons] at hfits hb
    have hne : b ≠ a := by omega
    rw [Memory.loadWords_cons (by omega), ih _ (by omega) (by omega), Memory.read_write, if_neg hne]

theorem Memory.read_loadWords_inside (lastCell : Bool) {ws : List Word} {a k : Nat} {w : Word} (m : Memory)
    (hfits : a + ws.length ≤ 0xFFFF) (hk : ws[k]? = some w) : (m.loadWords lastCell a ws).read (a + k) = w := by
  induction ws generalizing a k m with
  | nil => cases hk
  | cons x ws ih =>
    rw [List.length_cons] at hfits
    rw [Memory.loadWords_cons (by omega)]
    cases k with
    | zero =>
      cases hk
      rw [Memory.read_loadWords_outside lastCell _ (by omega) (by omega), Memory.read_write, if_pos a.add_zero]
    | succ k =>
      have haddr : a + (k + 1) = a + 1 + k := by omega
      rw [haddr]
      exact ih (m.write a x) (by omega) hk

/-- Settles O33: one image is its words laid down from its origin. -/
theorem imageIsLaidDownAtOrigin : Obligations.ImageIsLaidDownAtOrigin := by
  unfold Obligations.ImageIsLaidDownAtOrigin
  exact fun lastCell i m hfits => ⟨fun _ _ hk => Memory.read_loadWords_inside lastCell m hfits hk,
    fun _ hb => Memory.read_loadWords_outside lastCell m hfits hb⟩

end Sys2Proof.Machine

/-! ### GETC, IN, HALT, the unknown vectors, RTI and RES (45_trap.md, 46_rti_res.md) -/

namespace Sys2Proof.Machine

/-! The words of the rows. -/

theorem decode_getc_of_match {w : Word} (h : w &&& 0xF0FF#16 = 0xF020#16) : decode w = .getc :=
  decode_of_trap_match rfl h

theorem decode_puts_of_match {w : Word} (h : w &&& 0xF0FF#16 = 0xF022#16) : decode w = .puts :=
  decode_of_trap_match rfl h

theorem decode_inChar_of_match {w : Word} (h : w &&& 0xF0FF#16 = 0xF023#16) : decode w = .inChar :=
  decode_of_trap_match rfl h

theorem decode_putsp_of_match {w : Word} (h : w &&& 0xF0FF#16 = 0xF024#16) : decode w = .putsp :=
  decode_of_trap_match rfl h

theorem decode_halt_of_match {w : Word} (h : w &&& 0xF0FF#16 = 0xF025#16) : decode w = .halt :=
  decode_of_trap_match rfl h

/-! A character that arrives (R213, R217). -/

theorem takeChar_reg_r0 (s : State) (c : Byte) (q : List Byte) : (s.takeChar c q).reg .r0 = zext8 c :=
  reg_setReg_same _ .r0 (zext8 c)

/-- A routine that has written no register but the link and R0 goes on as R210 says. -/
theorem trapReturned_r0_complete {s m : State} {v : Word} (hregs : m.regs = (s.link.setReg .r0 v).regs)
    (hpc : m.pc = s.pc) (hcond : m.cond = s.cond) : TrapReturned [.r0] s (m.setPc m.nextPc) :=
  have hreg (q : Reg) : (m.setPc m.nextPc).reg q = (s.link.setReg .r0 v).reg q := congrArg (Regs.get · q) hregs
  { link := by rw [hreg, reg_setReg_ne _ _ _ _ (by decide), State.link, reg_setReg_same, nextPc_eq]
    regs := fun q hq => by
      obtain ⟨h7, h0⟩ : q ≠ .r7 ∧ q ≠ .r0 := by simpa using hq
      rw [hreg, reg_setReg_ne _ _ _ _ h0, State.link, reg_setReg_ne _ _ _ _ h7]
    pc := congrArg (· + 1#16) hpc
    cond := hcond }

theorem exec_getc_of_cons {s : State} {c : Byte} {q : List Byte} (h : s.kbq = c :: q) :
    exec .getc s = complete (s.takeChar c q) := by
  unfold exec execGetc
  rw [h]

/-- GETC with a character pending. -/
theorem exec_getc_next {s : State} {c : Byte} {q : List Byte} (h : s.kbq = c :: q) :
    ∃ t, exec .getc s = .next t ∧ (t.reg .r0).toNat = c.toNat ∧ TrapReturned [.r0] s t ∧ t.kbq = q ∧ t.out = s.out ∧
      MemKeptBut [] s t ∧ ControlKept s t := by
  refine ⟨_, exec_getc_of_cons h, ?_, trapReturned_r0_complete rfl rfl rfl, rfl, rfl, fun _ _ => rfl,
    ⟨rfl, rfl, rfl, rfl, rfl⟩⟩
  rw [setPc_reg, takeChar_reg_r0, toNat_zext8]

/-- Settles O34: the two cases of KBQ are the two arms of GETC. -/
theorem getcTakesOrHolds : Obligations.GetcTakesOrHolds := by
  unfold Obligations.GetcTakesOrHolds
  exact ⟨fun _ => decode_getc_of_match, fun _ => ⟨exec_getc_of_nil, fun _ _ => exec_getc_next⟩⟩

/-! The prompt of IN writes OUT and PROMPTED alone (R217). -/

@[simp] theorem prompt_regs (s : State) : s.prompt.regs = s.regs := by unfold State.prompt; split <;> rfl
@[simp] theorem prompt_cond (s : State) : s.prompt.cond = s.cond := by unfold State.prompt; split <;> rfl
@[simp] theorem prompt_mem (s : State) : s.prompt.mem = s.mem := by unfold State.prompt; split <;> rfl
@[simp] theorem prompt_run (s : State) : s.prompt.run = s.run := by unfold State.prompt; split <;> rfl
@[simp] theorem prompt_kbq (s : State) : s.prompt.kbq = s.kbq := by unfold State.prompt; split <;> rfl
@[simp] theorem prompt_stopReq (s : State) : s.prompt.stopReq = s.stopReq := by unfold State.prompt; split <;> rfl

theorem prompt_reg (s : State) (q : Reg) : s.prompt.reg q = s.reg q := congrArg (Regs.get · q) (prompt_regs s)

@[simp] theorem prompt_prompted (s : State) : s.prompt.prompted = true := by
  unfold State.prompt
  split
  · assumption
  · rfl

theorem prompt_out (s : State) :
    s.prompt.out = s.out ++ if s.prompted then [] else s.config.inPrompt.map .write := by
  unfold State.prompt
  split
  · exact (List.append_nil _).symm
  · rfl

theorem exec_inChar_of_nil {s : State} (h : s.kbq = []) : exec .inChar s = .next s.prompt := by
  unfold exec execIn
  rw [prompt_kbq, h]
  rfl

theorem exec_inChar_of_cons {s : State} {c : Byte} {q : List Byte} (h : s.kbq = c :: q) :
    exec .inChar s = complete (((s.prompt.emit [.echo c]).takeChar c q).setPrompted false) := by
  unfold exec execIn
  rw [prompt_kbq, h]

/-- IN with a character pending. -/
theorem exec_inChar_next {s : State} {c : Byte} {q : List Byte} (h : s.kbq = c :: q) :
    ∃ t, exec .inChar s = .next t ∧
      t.out = s.out ++ (if s.prompted then [] else s.config.inPrompt.map .write) ++ [.echo c] ∧ t.prompted = false ∧
      (t.reg .r0).toNat = c.toNat ∧ TrapReturned [.r0] s t ∧ MemKeptBut [] s t ∧ t.kbq = q ∧
      t.run = s.run ∧ t.haltCause = s.haltCause ∧ t.stopReq = s.stopReq ∧ t.config = s.config := by
  have hlink : s.prompt.link.regs = s.link.regs := by
    rw [State.link, State.link, setReg_regs, setReg_regs, prompt_regs, nextPc_eq, nextPc_eq, prompt_pc]
  refine ⟨_, exec_inChar_of_cons h, ?_, rfl, ?_,
    trapReturned_r0_complete (v := zext8 c) (congrArg (Regs.set · .r0 (zext8 c)) hlink) (prompt_pc s) (prompt_cond s),
    fun a _ => prompt_peek s a, rfl, prompt_run s, prompt_haltCause s, prompt_stopReq s, prompt_config s⟩
  · rw [← prompt_out]
    rfl
  · rw [setPc_reg, setPrompted_reg, takeChar_reg_r0, toNat_zext8]

/-- Settles O40: the two cases of KBQ are the two arms of IN, both after its prompt. -/
theorem inPromptsOnceThenEchoes : Obligations.InPromptsOnceThenEchoes := by
  unfold Obligations.InPromptsOnceThenEchoes
  refine ⟨fun _ => decode_inChar_of_match, fun s => ⟨fun h => ?_, fun _ _ => exec_inChar_next⟩⟩
  exact ⟨s.prompt, exec_inChar_of_nil h, prompt_out s, prompt_prompted s, prompt_pc s, prompt_cond s,
    fun q _ => prompt_reg s q, fun a _ => prompt_peek s a, (prompt_kbq s).trans h, prompt_run s, prompt_haltCause s,
    prompt_stopReq s, prompt_config s⟩

theorem exec_halt_next (s : State) : ∃ t, exec .halt s = .next t ∧ t.run = .halted ∧ t.haltCause = .haltTrap ∧
    TrapReturned [] s t ∧ MemKeptBut [] s t ∧ PortsKept s t ∧ t.prompted = s.prompted ∧ t.stopReq = s.stopReq ∧
    t.config = s.config :=
  ⟨(s.link.haltWith .haltTrap).setPc (s.link.haltWith .haltTrap).nextPc, rfl, rfl, rfl,
    trapReturned_complete rfl rfl rfl, fun _ _ => rfl, ⟨rfl, rfl⟩, rfl, rfl, rfl⟩

/-- Settles O41: HALT links, enters Halted and completes. -/
theorem haltTrapHalts : Obligations.HaltTrapHalts := by
  unfold Obligations.HaltTrapHalts
  exact ⟨fun _ => decode_halt_of_match, exec_halt_next⟩

theorem exec_trap_of_not_mem {vec : BitVec 8} (h : vec ∉ routineVectors) (s : State) :
    exec (.trap vec) s = .next (s.haltWith .errBadTrap) := execTrap_of_not_mem h s

theorem not_mem_routineVectors_iff (vec : BitVec 8) : vec ∉ routineVectors ↔ vec.toNat < 0x20 ∨ 0x25 < vec.toNat := by
  rw [mem_routineVectors_iff]
  omega

/-- Settles O42: a vector of no routine leaves the generic row, whose whole effect is the decode error. -/
theorem unknownVectorIsFatal : Obligations.UnknownVectorIsFatal := by
  unfold Obligations.UnknownVectorIsFatal
  refine ⟨fun w h hvec => ?_, fun vec s hvec => ?_⟩
  · rw [← toNat_vectorField, ← not_mem_routineVectors_iff] at hvec
    exact (decode_eq_trap_iff w _).mpr ⟨opcodeField_of_match rfl h, rfl, hvec⟩
  · rw [← not_mem_routineVectors_iff] at hvec
    exact ⟨_, exec_trap_of_not_mem hvec s, haltedOnly_haltWith .errBadTrap s⟩

/-- Settles O44: the whole effect of both is the decode error. -/
theorem rtiAndResAreFatal : Obligations.RtiAndResAreFatal := by
  unfold Obligations.RtiAndResAreFatal
  exact ⟨fun _ => decode_rti_of_match, fun _ => decode_res_of_match,
    fun s => ⟨⟨_, exec_rti s, haltedOnly_haltWith .errRti s⟩, ⟨_, exec_res s, haltedOnly_haltWith .errRes s⟩⟩⟩

end Sys2Proof.Machine

/-! ### PUTS and PUTSP (45_trap.md R215 to R218) -/

namespace Sys2Proof.Machine

/-- The bytes of PUTS in the words of R215. -/
theorem putsBytes_eq : putsBytes = fun x => [BitVec.ofNat 8 x.toNat] := by
  funext x
  rw [putsBytes, lowByte_eq_ofNat]

theorem highByte_eq_ofNat (x : Word) : highByte x = BitVec.ofNat 8 (x.toNat / 256) := by
  simp [highByte, BitVec.extractLsb', Nat.shiftRight_eq_div_pow]

theorem highByte_eq_zero_iff (x : Word) : highByte x = 0x00#8 ↔ x.toNat / 256 = 0 := by
  rw [highByte_eq_ofNat]
  bv_omega

/-- The bytes of PUTSP in the words of R218. -/
theorem putspBytes_eq : putspBytes = fun x => if x.toNat / 256 = 0 then [BitVec.ofNat 8 x.toNat]
    else [BitVec.ofNat 8 x.toNat, BitVec.ofNat 8 (x.toNat / 256)] := by
  funext x
  simp only [putspBytes, highByte_eq_zero_iff]
  rw [lowByte_eq_ofNat, highByte_eq_ofNat]

theorem exec_puts (s : State) : exec .puts s = putString putsBytes s := rfl

theorem exec_putsp (s : State) : exec .putsp s = putString putspBytes s := rfl

/-- The scan of a whole turn ends in `m` exactly when the loop of the rules, from the linked state, does. -/
theorem scanString_link_eq_some {bytesOf : Word → List Byte} {s m : State} :
    scanString bytesOf scanLimit (s.reg .r0) s.link = some m ↔
      ∃ n, n < 65536 ∧ StringScan bytesOf n (s.reg .r0) (s.setReg .r7 (s.pc + 1#16)) m := scanString_eq_some

/-- A scan that ends keeps the control state of what it began in, and the routine goes on as R210 says. -/
theorem trapReturned_of_scan {bytesOf : Word → List Byte} {s m : State}
    (h : scanString bytesOf scanLimit (s.reg .r0) s.link = some m) :
    TrapReturned [] s (m.setPc m.nextPc) ∧ ControlKept s (m.setPc m.nextPc) := by
  have hkeeps := scanString_keeps h
  exact ⟨trapReturned_complete hkeeps.regs hkeeps.pc hkeeps.cond, { hkeeps.control with }⟩

theorem putString_next {bytesOf : Word → List Byte} {s m : State} {n : Nat} (hn : n < 65536)
    (h : StringScan bytesOf n (s.reg .r0) (s.setReg .r7 (s.pc + 1#16)) m) :
    ∃ t, putString bytesOf s = .next t ∧ t.out = m.out ∧ t.kbq = m.kbq ∧ MemKeptBut [] m t ∧ TrapReturned [] s t ∧
      ControlKept s t := by
  have hscan := scanString_link_eq_some.mpr ⟨n, hn, h⟩
  obtain ⟨hreturned, hcontrol⟩ := trapReturned_of_scan hscan
  rcases putString_cases bytesOf s with ⟨m', hscan', hnext⟩ | ⟨hnone, -⟩
  · cases hscan'.symm.trans hscan
    exact ⟨_, hnext, rfl, rfl, fun _ _ => rfl, hreturned, hcontrol⟩
  · cases hnone.symm.trans hscan

/-- Settles O36: PUTS is the loop with the low byte of each cell. -/
theorem putsRunsTheLoop : Obligations.PutsRunsTheLoop := by
  unfold Obligations.PutsRunsTheLoop
  rw [← putsBytes_eq]
  exact ⟨fun _ => decode_puts_of_match, fun _ _ _ => putString_next⟩

/-- Settles O37: PUTSP is the loop with both bytes of each cell, the high one if it is not zero. -/
theorem putspRunsTheLoop : Obligations.PutspRunsTheLoop := by
  unfold Obligations.PutspRunsTheLoop
  rw [← putspBytes_eq]
  exact ⟨fun _ => decode_putsp_of_match, fun _ _ _ => putString_next⟩

theorem putString_eq_fault_iff (bytesOf : Word → List Byte) (s : State) :
    putString bytesOf s = .fault .stuckStringScan ↔
      ¬∃ (n : Nat) (m : State), n < 65536 ∧ StringScan bytesOf n (s.reg .r0) (s.setReg .r7 (s.pc + 1#16)) m := by
  constructor
  · rintro hfault ⟨n, m, hn, hscan⟩
    obtain ⟨t, hnext, -⟩ := putString_next hn hscan
    cases hnext.symm.trans hfault
  · intro hnone
    rcases putString_cases bytesOf s with ⟨m, hscan, -⟩ | ⟨-, hfault⟩
    · obtain ⟨n, hn, hloop⟩ := scanString_link_eq_some.mp hscan
      exact absurd ⟨n, m, hn, hloop⟩ hnone
    · exact hfault

/-- Settles O39: the fuel of the scan is the bound of the rule. -/
theorem scanWithoutZeroHangs : Obligations.ScanWithoutZeroHangs := by
  unfold Obligations.ScanWithoutZeroHangs
  exact fun s => ⟨putString_eq_fault_iff putsBytes s, putString_eq_fault_iff putspBytes s⟩

/-! A string outside the status cell: every read of the loop is plain, so it changes OUT alone. -/

theorem emit_nil (s : State) : s.emit [] = s := by
  unfold State.emit
  rw [List.append_nil]

theorem emit_emit (s : State) (es es' : List OutEvent) : (s.emit es).emit es' = s.emit (es ++ es') := by
  unfold State.emit
  rw [List.append_assoc]

/-- Whether the cells hold a string depends on the parameters and the cells alone. -/
theorem HoldsString.congr {s s' : State} {a : Word} {ws : List Word} (h : HoldsString s a ws)
    (hconfig : s'.config = s.config) (hpeek : ∀ b, s'.peek b = s.peek b) : HoldsString s' a ws := by
  induction ws generalizing a with
  | nil => rwa [HoldsString, hconfig, hpeek]
  | cons x xs ih =>
    obtain ⟨hplain, hcell, hne, hrest⟩ := h
    exact ⟨hconfig ▸ hplain, (hpeek a).trans hcell, hne, ih hrest⟩

theorem stringScan_of_holdsString (bytesOf : Word → List Byte) {s : State} {a : Word} {ws : List Word}
    (h : HoldsString s a ws) :
    StringScan bytesOf ws.length a s (s.emit (ws.flatMap fun x => (bytesOf x).map .write)) := by
  induction ws generalizing a s with
  | nil =>
    obtain ⟨hplain, hcell⟩ := h
    have hread := memRead_plain hplain
    have hstop := StringScan.stop (bytesOf := bytesOf) (a := a) (s := s) (by rw [hread, hcell])
    rw [hread] at hstop
    rwa [List.flatMap_nil, emit_nil]
  | cons x xs ih =>
    obtain ⟨hplain, rfl, hne, hrest⟩ := h
    have hread := memRead_plain hplain
    refine StringScan.cell (by rwa [hread]) ?_
    rw [hread, List.flatMap_cons, ← emit_emit]
    exact ih (hrest.congr rfl fun _ => rfl)

theorem putString_of_holdsString (bytesOf : Word → List Byte) {s : State} {ws : List Word} (hlen : ws.length < 65536)
    (h : HoldsString s (s.reg .r0) ws) :
    ∃ t, putString bytesOf s = .next t ∧ t.out = s.out ++ (ws.flatMap fun x => (bytesOf x).map .write) ∧
      TrapReturned [] s t ∧ t.kbq = s.kbq ∧ MemKeptBut [] s t ∧ ControlKept s t := by
  have hlinked : HoldsString (s.setReg .r7 (s.pc + 1#16)) (s.reg .r0) ws := h.congr rfl fun _ => rfl
  obtain ⟨t, hnext, hout, hkbq, hmem, hreturned, hcontrol⟩ :=
    putString_next hlen (stringScan_of_holdsString bytesOf hlinked)
  exact ⟨t, hnext, hout, hreturned, hkbq, hmem, hcontrol⟩

/-- Settles O38: the loop over the string writes the bytes of each word in turn. -/
theorem stringsAreWrittenInOrder : Obligations.StringsAreWrittenInOrder := by
  unfold Obligations.StringsAreWrittenInOrder
  intro s ws hlen h
  have hputs : (ws.flatMap fun x => (putsBytes x).map OutEvent.write) =
      ws.map fun x => .write (BitVec.ofNat 8 x.toNat) := by
    rw [putsBytes_eq]
    exact List.map_eq_flatMap.symm
  have hputsp : (fun x => (putspBytes x).map OutEvent.write) = fun x => .write (BitVec.ofNat 8 x.toNat) ::
      (if x.toNat / 256 = 0 then [] else [.write (BitVec.ofNat 8 (x.toNat / 256))]) := by
    funext x
    rw [putspBytes_eq]
    dsimp only
    split <;> rfl
  rw [exec_puts, exec_putsp, ← hputs, ← hputsp]
  exact ⟨putString_of_holdsString putsBytes hlen h, putString_of_holdsString putspBytes hlen h⟩

end Sys2Proof.Machine

/-! ### How a TRAP ends (45_trap.md R210, R211) -/

namespace Sys2Proof.Machine

theorem TrapReturned.weaken {rs : List Reg} {s t : State} (h : TrapReturned [] s t) : TrapReturned rs s t :=
  { h with regs := fun q hq => h.regs q fun h7 => hq (List.mem_cons.mpr (.inl (List.mem_singleton.mp h7))) }

/-- A TRAP has gone on to PC' with the link in R7, or (hold, fatal error) has left PC, COND and every register. -/
def GoesOnOrLeaves (s t : State) : Prop :=
  TrapReturned [.r0] s t ∨ (t.pc = s.pc ∧ t.cond = s.cond ∧ RegsKeptBut [] s t)

theorem goesOnOrLeaves_execGetc {s t : State} (h : exec .getc s = .next t) : GoesOnOrLeaves s t := by
  match hkbq : s.kbq with
  | [] =>
    cases (exec_getc_of_nil hkbq).symm.trans h
    exact .inr ⟨rfl, rfl, fun _ _ => rfl⟩
  | c :: q =>
    obtain ⟨t', hnext, -, hreturned, -⟩ := exec_getc_next hkbq
    cases hnext.symm.trans h
    exact .inl hreturned

theorem goesOnOrLeaves_execIn {s t : State} (h : exec .inChar s = .next t) : GoesOnOrLeaves s t := by
  match hkbq : s.kbq with
  | [] =>
    cases (exec_inChar_of_nil hkbq).symm.trans h
    exact .inr ⟨prompt_pc s, prompt_cond s, fun q _ => prompt_reg s q⟩
  | c :: q =>
    obtain ⟨t', hnext, -, -, -, hreturned, -⟩ := exec_inChar_next hkbq
    cases hnext.symm.trans h
    exact .inl hreturned

theorem goesOnOrLeaves_execOut {s t : State} (h : exec .out s = .next t) : GoesOnOrLeaves s t := by
  obtain ⟨t', hnext, -, hreturned, -⟩ := complete_link_emit_next s [.write (BitVec.ofNat 8 (s.reg .r0).toNat)]
  cases ((exec_out s).trans hnext).symm.trans h
  exact .inl hreturned.weaken

theorem goesOnOrLeaves_execHalt {s t : State} (h : exec .halt s = .next t) : GoesOnOrLeaves s t := by
  obtain ⟨t', hnext, -, -, hreturned, -⟩ := exec_halt_next s
  cases hnext.symm.trans h
  exact .inl hreturned.weaken

theorem goesOnOrLeaves_putString {bytesOf : Word → List Byte} {s t : State} (h : putString bytesOf s = .next t) :
    GoesOnOrLeaves s t := by
  rcases putString_cases bytesOf s with ⟨m, hscan, hnext⟩ | ⟨-, hstuck⟩
  · cases hnext.symm.trans h
    exact .inl (trapReturned_of_scan hscan).1.weaken
  · cases hstuck.symm.trans h

theorem goesOnOrLeaves_decodeTrap {vec : BitVec 8} {s t : State} (h : exec (decodeTrap vec) s = .next t) :
    GoesOnOrLeaves s t := by
  by_cases hvec : vec ∈ routineVectors
  · fin_cases hvec
    · exact goesOnOrLeaves_execGetc h
    · exact goesOnOrLeaves_execOut h
    · exact goesOnOrLeaves_putString h
    · exact goesOnOrLeaves_execIn h
    · exact goesOnOrLeaves_putString h
    · exact goesOnOrLeaves_execHalt h
  · rw [decodeTrap_of_not_mem hvec] at h
    cases (exec_trap_of_not_mem hvec s).symm.trans h
    exact .inr ⟨rfl, rfl, fun _ _ => rfl⟩

/-- Settles O43: routine by routine; the generic row hands a recognised vector to its routine. -/
theorem trapGoesOnOrLeavesRegisters : Obligations.TrapGoesOnOrLeavesRegisters := by
  unfold Obligations.TrapGoesOnOrLeavesRegisters
  refine ⟨fun w s t hw h => ?_, fun s => ⟨rfl, rfl, rfl, rfl, rfl, rfl⟩⟩
  rw [decode_of_trap_opcode (opcodeField_of_match rfl hw)] at h
  exact goesOnOrLeaves_decodeTrap h

end Sys2Proof.Machine

/-! ### The fatal step (40_instruction_cycle.md R117) -/

namespace Sys2Proof.Machine

/-- The cause with which each of the three illegal instructions enters Halted (R255). -/
def fatalCause : Instr → HaltCause
  | .rti => .errRti
  | .res => .errRes
  | _ => .errBadTrap

theorem exec_of_fatal {w : Word} (h : decode w = .rti ∨ decode w = .res ∨ ∃ vec, decode w = .trap vec) (s : State) :
    exec (decode w) s = .next (s.haltWith (fatalCause (decode w))) := by
  rcases h with hw | hw | ⟨vec, hw⟩
  · rw [hw]
    exact exec_rti s
  · rw [hw]
    exact exec_res s
  · obtain ⟨-, -, hvec⟩ := (decode_eq_trap_iff w vec).mp hw
    rw [hw]
    exact exec_trap_of_not_mem hvec s

/-- Settles O45: the instruction halts in the state the fetch left, in which the cell at PC is the word fetched. -/
theorem fatalErrorLeavesOffendingWord : Obligations.FatalErrorLeavesOffendingWord := by
  unfold Obligations.FatalErrorLeavesOffendingWord
  intro s hfetches hillegal
  have hstep : step s = .next (s.fetch.2.haltWith (fatalCause s.current)) :=
    (step_of_fetches hfetches).trans (exec_of_fatal hillegal s.fetch.2)
  have hcell : s.fetch.2.peek s.pc = s.fetch.1 := (memRead_fst s s.pc).symm
  refine ⟨_, hstep, rfl, fun h => ?_, fun h => ?_, fun vec h => ?_, memRead_pc s s.pc, memRead_cond s s.pc,
    fun q _ => memRead_reg s s.pc q, memRead_out s s.pc, memRead_prompted s s.pc, memRead_stopReq s s.pc,
    memRead_config s s.pc, hcell, congrArg decode hcell, fun hplain => ?_⟩
  · rw [haltWith_haltCause, h, fatalCause]
  · rw [haltWith_haltCause, h, fatalCause]
  · rw [haltWith_haltCause, h, fatalCause] <;> exact nofun
  · rw [fetch_plain hplain]
    exact ⟨fun _ _ => rfl, rfl⟩

end Sys2Proof.Machine

/-! ### The wait for a character (40_instruction_cycle.md R116) -/

namespace Sys2Proof.Machine

open Sys2Proof.Laws.EncodeOpcode (opcodeOf)

/-- GETC and IN: the instructions that wait, among those a word decodes to. -/
def WaitsForChar (i : Instr) : Prop := i = .getc ∨ i = .inChar

theorem waitsForChar_of_waits {w : Word} (h : (decode w).waits = true) : WaitsForChar (decode w) := by
  cases hi : decode w with
  | getc => exact .inl rfl
  | inChar => exact .inr rfl
  | trap vec =>
    rw [hi] at h
    have hvec : vec ∈ routineVectors := by
      rcases of_decide_eq_true h with rfl | rfl <;> decide
    exact absurd hi (decode_ne_trap_of_mem hvec w)
  | _ =>
    rw [hi] at h
    cases h

/-- What a held GETC or IN leaves: all but OUT and PROMPTED. -/
structure Held (s t : State) : Prop where
  regs : t.regs = s.regs
  pc : t.pc = s.pc
  cond : t.cond = s.cond
  mem : t.mem = s.mem
  run : t.run = s.run
  haltCause : t.haltCause = s.haltCause
  kbq : t.kbq = s.kbq
  stopReq : t.stopReq = s.stopReq
  config : t.config = s.config

theorem exec_holds {i : Instr} (hi : WaitsForChar i) {s : State} (h : s.kbq = []) :
    ∃ t, exec i s = .next t ∧ Held s t ∧ (i = .getc → t = s) ∧ (i = .inChar → t = s.prompt) := by
  rcases hi with rfl | rfl
  · exact ⟨s, exec_getc_of_nil h, ⟨rfl, rfl, rfl, rfl, rfl, rfl, rfl, rfl, rfl⟩, fun _ => rfl, nofun⟩
  · exact ⟨s.prompt, exec_inChar_of_nil h, ⟨prompt_regs s, prompt_pc s, prompt_cond s, prompt_mem s, prompt_run s,
      prompt_haltCause s, prompt_kbq s, prompt_stopReq s, prompt_config s⟩, nofun, fun _ => rfl⟩

theorem exec_takes {i : Instr} (hi : WaitsForChar i) {s : State} {c : Byte} {q : List Byte} (h : s.kbq = c :: q) :
    ∃ u, exec i s = .next u ∧ (u.reg .r0).toNat = c.toNat ∧ TrapReturned [.r0] s u ∧ u.kbq = q := by
  rcases hi with rfl | rfl
  · obtain ⟨u, hnext, hr0, hreturned, hkbq, -⟩ := exec_getc_next h
    exact ⟨u, hnext, hr0, hreturned, hkbq⟩
  · obtain ⟨u, hnext, -, -, hr0, hreturned, -, hkbq, -⟩ := exec_inChar_next h
    exact ⟨u, hnext, hr0, hreturned, hkbq⟩

/-- Going on from a held state is going on from where it was held. -/
theorem TrapReturned.of_held {rs : List Reg} {s t u : State} (ht : Held s t) (h : TrapReturned rs t u) :
    TrapReturned rs s u where
  link := by rw [h.link, ht.pc]
  regs q hq := (h.regs q hq).trans (congrArg (Regs.get · q) ht.regs)
  pc := by rw [h.pc, ht.pc]
  cond := h.cond.trans ht.cond

theorem Held.peek {s t : State} (h : Held s t) (a : Word) : t.peek a = s.peek a :=
  congrArg (Memory.read · a.toNat) h.mem

theorem Held.fetches {s t : State} (h : Held s t) (hs : s.fetches) : t.fetches :=
  ⟨h.run.trans hs.1, h.stopReq.trans hs.2⟩

theorem Held.plain {s t : State} (h : Held s t) (hs : s.pc ≠ s.config.kbsrAddr) : t.pc ≠ t.config.kbsrAddr := by
  rwa [h.pc, h.config]

theorem Held.current {s t : State} (h : Held s t) (hs : s.pc ≠ s.config.kbsrAddr) : t.current = s.current := by
  rw [current_plain hs, current_plain (h.plain hs), h.pc, h.peek]

/-- A byte from the HOST lets a waiting instruction complete with it. -/
theorem step_of_appendKey {t : State} (hfetches : t.fetches) (hplain : t.pc ≠ t.config.kbsrAddr)
    (hwaits : WaitsForChar t.current) (hkbq : t.kbq = []) (b : Byte) :
    ∃ u, step (hostMove (.appendKey b) t) = .next u ∧ (u.reg .r0).toNat = b.toNat ∧ TrapReturned [.r0] t u ∧
      u.kbq = [] := by
  have hkbq' : (hostMove (.appendKey b) t).kbq = [b] := by
    rw [hostMove, setKbq_kbq, hkbq, List.nil_append]
  obtain ⟨u, hnext, hr0, hreturned, hrest⟩ := exec_takes hwaits hkbq'
  refine ⟨u, ?_, hr0, { hreturned with }, hrest⟩
  rw [step_plain (s := hostMove (.appendKey b) t) hfetches hplain, ← hnext, current_plain hplain]
  rfl

/-- Settles O49: the instruction lies in a plain cell, so the fetch changes nothing, and neither does the hold, but for the
prompt of IN; the same instruction then finds the byte the HOST appended, or the step finds the stop request. -/
theorem holdIsLiftedByCharacterOrStop : Obligations.HoldIsLiftedByCharacterOrStop := by
  unfold Obligations.HoldIsLiftedByCharacterOrStop
  intro s b hfetches hwaits hkbq
  have hchar : WaitsForChar s.current := waitsForChar_of_waits hwaits
  have hop : opcodeOf s.current = 0xF#4 := by rcases hchar with h | h <;> rw [h] <;> rfl
  have hplain := pc_ne_status_of_trap hop
  rw [fetch_plain hplain] at hkbq
  obtain ⟨t, hexec, hheld, hgetc, hin⟩ := exec_holds hchar hkbq
  have hstep : step s = .next t := by
    rw [step_plain hfetches hplain, ← current_plain hplain, hexec]
  have hkbq' : t.kbq = [] := hheld.kbq.trans hkbq
  obtain ⟨u, hresume, hr0, hreturned, hrest⟩ := step_of_appendKey (hheld.fetches hfetches) (hheld.plain hplain)
    (hheld.current hplain ▸ hchar) hkbq' b
  refine ⟨t, hstep, hheld.pc, hheld.cond, fun q _ => congrArg (Regs.get · q) hheld.regs, fun a _ => hheld.peek a,
    (hheld.fetches hfetches).1, hheld.haltCause, hkbq', hheld.current hplain, hgetc, fun h => ?_,
    ⟨u, hresume, hr0, hreturned.of_held hheld, hrest⟩,
    ⟨_, step_of_stopReq (s := hostMove (.driveStop true) t) (hheld.fetches hfetches).1 rfl, rfl, rfl, hheld.pc⟩⟩
  rw [hin h]
  exact ⟨prompt_prompted s, prompt_out s⟩

end Sys2Proof.Machine

/-! ### Which steps have a next state (40_instruction_cycle.md R119) -/

namespace Sys2Proof.Machine

theorem exec_br_answers (mask : BitVec 3) (off9 : BitVec 9) (s : State) : ∃ t, exec (.br mask off9) s = .next t := by
  by_cases h : branchTaken mask s.cond = true
  · exact ⟨_, exec_br_of_taken h off9⟩
  · exact ⟨_, exec_br_of_not_taken h off9⟩

theorem exec_waits_answers {i : Instr} (hi : WaitsForChar i) (s : State) : ∃ t, exec i s = .next t := by
  match hkbq : s.kbq with
  | [] =>
    obtain ⟨t, hnext, -⟩ := exec_holds hi hkbq
    exact ⟨t, hnext⟩
  | c :: q =>
    obtain ⟨t, hnext, -⟩ := exec_takes hi hkbq
    exact ⟨t, hnext⟩

/-- Every instruction that a word decodes to answers a next state, but for the two that scan a string. -/
theorem exec_answers {i : Instr} (hwf : i.wf = true) (hputs : i ≠ .puts) (hputsp : i ≠ .putsp) (s : State) :
    ∃ t, exec i s = .next t := by
  cases i with
  | puts => exact absurd rfl hputs
  | putsp => exact absurd rfl hputsp
  | br mask off9 => exact exec_br_answers mask off9 s
  | getc => exact exec_waits_answers (.inl rfl) s
  | inChar => exact exec_waits_answers (.inr rfl) s
  | trap vec =>
    have hvec : vec ∉ routineVectors := by simpa [Instr.wf] using hwf
    exact ⟨_, exec_trap_of_not_mem hvec s⟩
  | addReg | addImm | andReg | andImm | not | ld | ldi | ldr | lea | st | sti | str => exact ⟨_, rfl⟩
  | ret | jmp | jsr | jsrr | out | halt | rti | res => exact ⟨_, rfl⟩

theorem putString_answers_or (bytesOf : Word → List Byte) (s : State) :
    (∃ t, putString bytesOf s = .next t) ∨ putString bytesOf s = .fault .stuckStringScan := by
  rcases putString_cases bytesOf s with ⟨_, -, hnext⟩ | ⟨-, hfault⟩
  · exact .inl ⟨_, hnext⟩
  · exact .inr hfault

/-- Settles O50: a step that does not fetch answers; one that does executes a well-formed instruction. -/
theorem stepStopsOnlyOnEndlessScan : Obligations.StepStopsOnlyOnEndlessScan := by
  unfold Obligations.StepStopsOnlyOnEndlessScan
  intro s
  rcases step_cases s with ⟨-, hstep⟩ | ⟨-, -, hstep⟩ | ⟨hfetches, hstep⟩
  · exact .inl ⟨_, hstep⟩
  · exact .inl ⟨_, hstep⟩
  · have hr0 : s.fetch.2.reg .r0 = s.reg .r0 := memRead_reg s s.pc .r0
    have hpc : s.fetch.2.pc = s.pc := memRead_pc s s.pc
    rw [hstep, ← hr0, ← hpc]
    by_cases hputs : s.current = .puts
    · rw [hputs, exec_puts]
      exact (putString_answers_or putsBytes s.fetch.2).imp_right fun hfault =>
        ⟨hfault, hfetches, .inl ⟨rfl, (putString_eq_fault_iff putsBytes s.fetch.2).mp hfault⟩⟩
    by_cases hputsp : s.current = .putsp
    · rw [hputsp, exec_putsp]
      exact (putString_answers_or putspBytes s.fetch.2).imp_right fun hfault =>
        ⟨hfault, hfetches, .inr ⟨rfl, (putString_eq_fault_iff putspBytes s.fetch.2).mp hfault⟩⟩
    exact .inl (exec_answers (reads_decode s.fetch.1).1 hputs hputsp s.fetch.2)

end Sys2Proof.Machine

/-! ### Which registers an instruction reads (10_state.md R21) -/

namespace Sys2Proof.Machine

/-! Writes to the register file. -/

theorem setReg_setReg_same (s : State) (r : Reg) (v w : Word) : (s.setReg r v).setReg r w = s.setReg r w := by
  cases r <;> rfl

theorem regs_ext {g g' : Regs} (h : ∀ q, g.get q = g'.get q) : g = g' := by
  cases g
  cases g'
  rw [Regs.mk.injEq]
  exact ⟨h .r0, h .r1, h .r2, h .r3, h .r4, h .r5, h .r6, h .r7⟩

theorem setReg_comm (s : State) {r q : Reg} (h : q ≠ r) (v w : Word) :
    (s.setReg r v).setReg q w = (s.setReg q w).setReg r v := by
  refine congrArg (fun g => { s with regs := g }) (regs_ext fun p => ?_)
  change ((s.setReg r v).setReg q w).reg p = ((s.setReg q w).setReg r v).reg p
  rw [reg_setReg, reg_setReg, reg_setReg, reg_setReg]
  by_cases hp : p = q
  · rw [if_pos hp, if_neg (hp ▸ h), if_pos hp]
  · rw [if_neg hp, if_neg hp]

/-- The second state is the first but for the register `r`, which holds what it holds in the first, or `v`. -/
def DiffersAt (r : Reg) (v : Word) (s s' : State) : Prop := ∃ x, s' = s.setReg r x ∧ (x = s.reg r ∨ x = v)

namespace DiffersAt

variable {r : Reg} {v : Word} {s s' : State}

theorem of_setReg (r : Reg) (v : Word) (s : State) : DiffersAt r v s (s.setReg r v) := ⟨v, rfl, .inr rfl⟩

/-- The same write in both: of `r` itself it removes the difference, of another register it leaves it. -/
theorem setReg (h : DiffersAt r v s s') (q : Reg) (w : Word) : DiffersAt r v (s.setReg q w) (s'.setReg q w) := by
  obtain ⟨x, rfl, hx⟩ := h
  by_cases hq : q = r
  · subst hq
    exact ⟨w, by rw [setReg_setReg_same, setReg_setReg_same], .inl (reg_setReg_same s q w).symm⟩
  · exact ⟨x, setReg_comm s hq x w, by rwa [reg_setReg_ne s q r w (Ne.symm hq)]⟩

/-- The same operation in both, one that neither reads nor writes registers. -/
theorem map (h : DiffersAt r v s s') (f : State → State) (hf : ∀ m x, f (m.setReg r x) = (f m).setReg r x)
    (hreg : ∀ m, (f m).reg r = m.reg r) : DiffersAt r v (f s) (f s') := by
  obtain ⟨x, rfl, hx⟩ := h
  exact ⟨x, hf s x, by rwa [hreg]⟩

theorem setPc (h : DiffersAt r v s s') (a : Word) : DiffersAt r v (s.setPc a) (s'.setPc a) :=
  h.map (·.setPc a) (fun _ _ => rfl) fun _ => rfl

theorem writeDest (h : DiffersAt r v s s') (dr : Reg) (w : Word) :
    DiffersAt r v (s.writeDest dr w) (s'.writeDest dr w) :=
  (h.setReg dr w).map (·.setCond (condOf w)) (fun _ _ => rfl) fun _ => rfl

theorem emit (h : DiffersAt r v s s') (es : List OutEvent) : DiffersAt r v (s.emit es) (s'.emit es) :=
  h.map (·.emit es) (fun _ _ => rfl) fun _ => rfl

theorem setKbq (h : DiffersAt r v s s') (q : List Byte) : DiffersAt r v (s.setKbq q) (s'.setKbq q) :=
  h.map (·.setKbq q) (fun _ _ => rfl) fun _ => rfl

theorem setPrompted (h : DiffersAt r v s s') (b : Bool) : DiffersAt r v (s.setPrompted b) (s'.setPrompted b) :=
  h.map (·.setPrompted b) (fun _ _ => rfl) fun _ => rfl

theorem haltWith (h : DiffersAt r v s s') (c : HaltCause) : DiffersAt r v (s.haltWith c) (s'.haltWith c) :=
  h.map (·.haltWith c) (fun _ _ => rfl) fun _ => rfl

theorem memWrite (h : DiffersAt r v s s') (a w : Word) : DiffersAt r v (s.memWrite a w) (s'.memWrite a w) :=
  h.map (·.memWrite a w) (fun _ _ => rfl) fun _ => rfl

theorem nextPc_same (h : DiffersAt r v s s') : s'.nextPc = s.nextPc := by
  obtain ⟨x, rfl, -⟩ := h
  rfl

theorem link (h : DiffersAt r v s s') : DiffersAt r v s.link s'.link := by
  unfold State.link
  rw [h.nextPc_same]
  exact h.setReg .r7 s.nextPc

end DiffersAt

/-! Reads and scans do not depend on the registers. -/

theorem pollKeyboard_setReg (s : State) (r : Reg) (v : Word) :
    (s.setReg r v).pollKeyboard = s.pollKeyboard.setReg r v := by
  unfold State.pollKeyboard
  rw [setReg_kbq]
  split <;> rfl

theorem memRead_setReg (s : State) (r : Reg) (v a : Word) :
    (s.setReg r v).memRead a = ((s.memRead a).1, (s.memRead a).2.setReg r v) := by
  unfold State.memRead
  rw [setReg_config, pollKeyboard_setReg]
  split <;> rfl

theorem indirect_setReg (s : State) (r : Reg) (v : Word) (off9 : BitVec 9) :
    (s.setReg r v).indirect off9 = ((s.indirect off9).1, (s.indirect off9).2.setReg r v) :=
  memRead_setReg s r v (s.pcRelative off9)

theorem prompt_setReg (s : State) (r : Reg) (v : Word) : (s.setReg r v).prompt = s.prompt.setReg r v := by
  unfold State.prompt
  rw [setReg_prompted]
  split <;> rfl

theorem scanString_setReg (bytesOf : Word → List Byte) (fuel : Nat) (a : Word) (s : State) (r : Reg) (v : Word) :
    scanString bytesOf fuel a (s.setReg r v) = (scanString bytesOf fuel a s).map (·.setReg r v) := by
  induction fuel generalizing a s with
  | zero => rfl
  | succ fuel ih =>
    unfold scanString
    rw [memRead_setReg]
    split
    · rfl
    · exact ih (a + 1#16) ((s.memRead a).2.emit (writes (bytesOf (s.memRead a).1)))

/-! Handlers that do the same from two states that differ in one register. -/

/-- Where the first result is a next state, so is the second, and the two differ at most in `r`. -/
def Follows (r : Reg) (v : Word) (x y : Result) : Prop :=
  ∀ t, x = .next t → ∃ t', y = .next t' ∧ DiffersAt r v t t'

section

variable {r : Reg} {v : Word} {s s' : State}

theorem follows_next (h : DiffersAt r v s s') : Follows r v (.next s) (.next s') := by
  rintro t ⟨⟩
  exact ⟨s', rfl, h⟩

theorem follows_completeAt (h : DiffersAt r v s s') (a : Word) : Follows r v (completeAt s a) (completeAt s' a) :=
  follows_next (h.setPc a)

theorem follows_complete (h : DiffersAt r v s s') : Follows r v (complete s) (complete s') := by
  unfold complete
  rw [h.nextPc_same]
  exact follows_next (h.setPc s.nextPc)

end

variable (r : Reg) (v : Word) (s : State)

theorem follows_operate (op : AluOp) (dr : Reg) (a b : Word) :
    Follows r v (operate op dr a b s) (operate op dr a b (s.setReg r v)) :=
  follows_complete ((DiffersAt.of_setReg r v s).writeDest dr _)

theorem follows_loadFrom (dr : Reg) (ea : Word) : Follows r v (loadFrom dr ea s) (loadFrom dr ea (s.setReg r v)) := by
  unfold loadFrom
  rw [memRead_setReg]
  exact follows_complete ((DiffersAt.of_setReg r v _).writeDest dr _)

theorem follows_execLdi (dr : Reg) (off9 : BitVec 9) :
    Follows r v (execLdi dr off9 s) (execLdi dr off9 (s.setReg r v)) := by
  unfold execLdi
  rw [indirect_setReg]
  exact follows_loadFrom r v (s.indirect off9).2 dr (s.indirect off9).1

theorem follows_storeTo (ea w : Word) : Follows r v (storeTo ea w s) (storeTo ea w (s.setReg r v)) :=
  follows_complete ((DiffersAt.of_setReg r v s).memWrite ea w)

theorem follows_execBr (mask : BitVec 3) (off9 : BitVec 9) :
    Follows r v (execBr mask off9 s) (execBr mask off9 (s.setReg r v)) := by
  unfold execBr
  rw [setReg_cond]
  split
  · exact follows_completeAt (DiffersAt.of_setReg r v s) _
  · exact follows_complete (DiffersAt.of_setReg r v s)

theorem follows_execGetc : Follows r v (execGetc s) (execGetc (s.setReg r v)) := by
  unfold execGetc
  rw [setReg_kbq]
  split
  · exact follows_next (DiffersAt.of_setReg r v s)
  · exact follows_complete (((DiffersAt.of_setReg r v s).link.setKbq _).setReg .r0 _)

theorem follows_execIn : Follows r v (execIn s) (execIn (s.setReg r v)) := by
  unfold execIn
  rw [prompt_setReg, setReg_kbq]
  have hprompt := DiffersAt.of_setReg r v s.prompt
  split
  · exact follows_next hprompt
  · exact follows_complete ((((hprompt.emit _).link.setKbq _).setReg .r0 _).setPrompted false)

theorem follows_execHalt : Follows r v (execHalt s) (execHalt (s.setReg r v)) :=
  follows_complete ((DiffersAt.of_setReg r v s).link.haltWith .haltTrap)

theorem follows_raise (c : HaltCause) : Follows r v (raiseDecodeError c s) (raiseDecodeError c (s.setReg r v)) :=
  follows_next ((DiffersAt.of_setReg r v s).haltWith c)

/-! The handlers that read registers, from another register than theirs. -/

variable {r}

theorem reg_setReg_of_not_mem {q : Reg} {rs : List Reg} (hr : r ∉ rs) (hq : q ∈ rs) : (s.setReg r v).reg q = s.reg q :=
  reg_setReg_ne s r q v (ne_of_mem_of_not_mem hq hr)

theorem basePlus_congr {s s' : State} {baseR : Reg} (h : s'.reg baseR = s.reg baseR) (d : Int) :
    s'.basePlus baseR d = s.basePlus baseR d := by
  unfold State.basePlus
  rw [h]

theorem follows_execOut (hr : r ∉ [Reg.r0]) : Follows r v (exec .out s) (exec .out (s.setReg r v)) := by
  rw [exec_out, exec_out, reg_setReg_of_not_mem v s hr (List.mem_singleton_self _)]
  exact follows_complete ((DiffersAt.of_setReg r v s).link.emit _)

theorem follows_putString (hr : r ∉ [Reg.r0]) (bytesOf : Word → List Byte) :
    Follows r v (putString bytesOf s) (putString bytesOf (s.setReg r v)) := by
  obtain ⟨x, hlink, hx⟩ := (DiffersAt.of_setReg r v s).link
  have hr0 := reg_setReg_of_not_mem v s hr (List.mem_singleton_self _)
  intro t ht
  rcases putString_cases bytesOf s with ⟨m, hscan, hnext⟩ | ⟨-, hstuck⟩
  · cases hnext.symm.trans ht
    have hscan' : scanString bytesOf scanLimit ((s.setReg r v).reg .r0) (s.setReg r v).link = some (m.setReg r x) := by
      rw [hr0, hlink, scanString_setReg, hscan]
      rfl
    have hm : DiffersAt r v m (m.setReg r x) :=
      ⟨x, rfl, by rwa [State.reg, (scanString_keeps hscan).regs]⟩
    rcases putString_cases bytesOf (s.setReg r v) with ⟨m', hm', hnext'⟩ | ⟨hnone, -⟩
    · cases hm'.symm.trans hscan'
      exact ⟨_, hnext', hm.setPc m.nextPc⟩
    · cases hnone.symm.trans hscan'
  · cases hstuck.symm.trans ht

theorem follows_execTrap {vec : BitVec 8} (hr : r ∉ (Instr.trap vec).regReads) :
    Follows r v (execTrap vec s) (execTrap vec (s.setReg r v)) := by
  by_cases hvec : vec ∈ routineVectors
  · fin_cases hvec
    · exact follows_execGetc r v s
    · exact follows_execOut v s hr
    · exact follows_putString v s hr putsBytes
    · exact follows_execIn r v s
    · exact follows_putString v s hr putspBytes
    · exact follows_execHalt r v s
  · rw [execTrap_of_not_mem hvec, execTrap_of_not_mem hvec]
    exact follows_raise r v s .errBadTrap

/-- A register that an instruction does not read may hold anything. -/
theorem exec_follows {i : Instr} (hr : r ∉ i.regReads) : Follows r v (exec i s) (exec i (s.setReg r v)) := by
  have hread {q : Reg} (hq : q ∈ i.regReads) : (s.setReg r v).reg q = s.reg q := reg_setReg_of_not_mem v s hr hq
  have hself := DiffersAt.of_setReg r v s
  cases i with
  | addReg dr sr1 sr2 =>
    rw [exec_addReg, exec_addReg, hread (q := sr1) (by simp [Instr.regReads]),
      hread (q := sr2) (by simp [Instr.regReads])]
    exact follows_operate r v s .add dr _ _
  | andReg dr sr1 sr2 =>
    rw [exec_andReg, exec_andReg, hread (q := sr1) (by simp [Instr.regReads]),
      hread (q := sr2) (by simp [Instr.regReads])]
    exact follows_operate r v s .and dr _ _
  | addImm dr sr1 imm5 =>
    rw [exec_addImm, exec_addImm, hread (q := sr1) (List.mem_singleton_self _)]
    exact follows_operate r v s .add dr _ _
  | andImm dr sr1 imm5 =>
    rw [exec_andImm, exec_andImm, hread (q := sr1) (List.mem_singleton_self _)]
    exact follows_operate r v s .and dr _ _
  | not dr sr1 =>
    rw [exec_not, exec_not, hread (q := sr1) (List.mem_singleton_self _)]
    exact follows_operate r v s .not dr _ _
  | br mask off9 => exact follows_execBr r v s mask off9
  | ret =>
    rw [exec_ret, exec_ret, hread (q := .r7) (List.mem_singleton_self _)]
    exact follows_completeAt hself _
  | jmp baseR =>
    rw [exec_jmp, exec_jmp, hread (q := baseR) (List.mem_singleton_self _)]
    exact follows_completeAt hself _
  | jsr off11 => exact follows_completeAt hself.link _
  | jsrr baseR =>
    by_cases hbase : baseR = .r7
    · rw [hbase, exec_jsrr_r7, exec_jsrr_r7]
      exact follows_completeAt hself.link _
    · rw [exec_jsrr_of_ne hbase, exec_jsrr_of_ne hbase, hread (q := baseR) (List.mem_singleton_self _)]
      exact follows_completeAt hself.link _
  | ld dr off9 => exact follows_loadFrom r v s dr (s.pcRelative off9)
  | ldi dr off9 => exact follows_execLdi r v s dr off9
  | ldr dr baseR off6 =>
    rw [exec_ldr, exec_ldr, basePlus_congr (hread (q := baseR) (List.mem_singleton_self _))]
    exact follows_loadFrom r v s dr _
  | lea dr off9 => exact follows_complete (hself.writeDest dr _)
  | st sr off9 =>
    rw [exec_st, exec_st, hread (q := sr) (List.mem_singleton_self _)]
    exact follows_storeTo r v s _ _
  | sti sr off9 =>
    rw [exec_sti, exec_sti, indirect_setReg, hread (q := sr) (List.mem_singleton_self _)]
    exact follows_storeTo r v (s.indirect off9).2 _ _
  | str sr baseR off6 =>
    rw [exec_str, exec_str, baseOffset_eq, baseOffset_eq, hread (q := sr) (by simp [Instr.regReads]),
      basePlus_congr (hread (q := baseR) (by simp [Instr.regReads]))]
    exact follows_storeTo r v s _ _
  | getc => exact follows_execGetc r v s
  | out => exact follows_execOut v s hr
  | puts => exact follows_putString v s hr putsBytes
  | inChar => exact follows_execIn r v s
  | putsp => exact follows_putString v s hr putspBytes
  | halt => exact follows_execHalt r v s
  | trap vec => exact follows_execTrap v s hr
  | rti => exact follows_raise r v s .errRti
  | res => exact follows_raise r v s .errRes

/-- Settles O52: the write list is among the things an instruction keeps; with other contents in a register it does not
read, an instruction ends in the same state but for that register. -/
theorem registersReadAndWritten : Obligations.RegistersReadAndWritten := by
  unfold Obligations.RegistersReadAndWritten
  refine fun i s t h => ⟨(exec_keeps h).regs, fun r v hr => ?_⟩
  obtain ⟨t', hnext, x, rfl, hx⟩ := exec_follows v s hr t h
  refine ⟨_, hnext, fun q hq => reg_setReg_ne t r q x (List.ne_of_not_mem_cons hq), ?_, rfl, rfl, fun _ _ => rfl, rfl, rfl,
    rfl, rfl, rfl⟩
  rwa [reg_setReg_same]

end Sys2Proof.Machine
